-- ==== Sys2Proof/Word.lean ====
section
/-! DEFINITION. The machine's words: every register is 32 bits (10_state.md R20), every header byte 8. -/

namespace Sys2Proof

/-- A 32-bit register value (00_scope.md R5, R7). -/
abbrev Word := BitVec 32

/-- A byte of the header buffer, and the width of `STATUS.LASTOP` (10_state.md R29, R33). -/
abbrev Byte := BitVec 8

end Sys2Proof
end

