-- ==== Sys2Proof/Config.lean ====
section
/-! DEFINITION. The implementation parameters of 00_scope.md R5.
`SHC_BASE`, the one OPEN parameter, is no constant here: the functions of Machine/Bus.lean that take a host address
take it as their argument `base` (20_memory.md R50; log entry 5). The spec leaves no value free, so no constant here
is without a body. -/

namespace Sys2Proof

/-- The size of the register window in bytes: offsets 0x00 to 0xFF (00_scope.md R5, 20_memory.md R50). -/
def Config.windowBytes : Nat := 256

/-- The only accepted access width, in bytes (00_scope.md R5, 20_memory.md R52). -/
def Config.accessBytes : Nat := 4

/-- The number of bytes in the header buffer `HDR` (00_scope.md R5, 10_state.md R33). -/
def Config.hdrBytes : Nat := 54

/-- The largest value a 32-bit size field holds, `2^32 - 1` (40_stride.md R103, R104). -/
def Config.maxWord : Nat := 4294967295

end Sys2Proof
end

