-- ==== Sys2Proof/Syntax.lean ====
section
/-! DEFINITION. The commands of SHC: one constructor per row of the opcode map (30_encoding.md R72).
A command word has no operand field (R73), so no constructor takes an argument. A word that selects no command is no
row of the map: the decoder rejects it and writing it to `CMD` runs ILLEGAL (30_encoding.md R71, 43_control.md R172). -/

namespace Sys2Proof

/-- The ten commands (30_encoding.md R72). -/
inductive Instr where
  /-- 0x00, writes `STATUS` only (43_control.md R170). -/
  | nop
  /-- 0x01, `STRIDE` and `PAD` from `WIDTH` (40_stride.md R105). -/
  | stride
  /-- 0x02, the field registers, `STRIDE` and `PAD` from `WIDTH` and `HEIGHT` (41_header_serialize.md R120). -/
  | build
  /-- 0x03, field registers to wire bytes (41_header_serialize.md R122). -/
  | pack
  /-- 0x04, wire bytes to field registers (42_header_deserialize.md R140). -/
  | unpack
  /-- 0x05, checks the fields and loads the geometry (42_header_deserialize.md R142). -/
  | validate
  /-- 0x06, BUILD, then PACK if BUILD succeeded (41_header_serialize.md R123). -/
  | encode
  /-- 0x07, UNPACK, then VALIDATE (42_header_deserialize.md R143). -/
  | decode
  /-- 0x08, all state to its reset value (43_control.md R171). -/
  | sreset
  /-- 0x09, the file offset of row `ROW` (40_stride.md R106). -/
  | rowoff
  deriving DecidableEq, Repr

end Sys2Proof
end

