-- ==== Sys2Proof/WellFormed.lean ====
section
/-! DEFINITION. Well-formed command words and instructions.
The two checks of a command word are those of 30_encoding.md R70 and R72: the reserved bits are zero and the operation
code is one of the map. -/

namespace Sys2Proof

/-- `RSV`, bits 31:8, must be zero (30_encoding.md R70). -/
def rsvClear (c : Word) : Bool := c.toNat / 256 == 0

/-- `OPC`, bits 7:0, lies in 0x00 to 0x09 (30_encoding.md R71, R72). -/
def opcMapped (c : Word) : Bool := decide (c.toNat % 256 ≤ 9)

/-- The command words that select a command (30_encoding.md R71, R74). -/
def wordWellFormed (c : Word) : Bool := rsvClear c && opcMapped c

/-- An instruction has no operand, hence no operand that could be out of range: every term is well formed
(30_encoding.md R73). -/
def Instr.wellFormed : Instr → Bool
  | .nop => true
  | .stride => true
  | .build => true
  | .pack => true
  | .unpack => true
  | .validate => true
  | .encode => true
  | .decode => true
  | .sreset => true
  | .rowoff => true

end Sys2Proof
end

