-- ==== Sys2Proof/Decode.lean ====
section
/-! DEFINITION. The command word's fields, the total decoder and the encoder (30_encoding.md R70 to R74).
A command is one whole 32-bit write (R70) with no byte lanes (20_memory.md R56), so the decoder reads a word. -/

namespace Sys2Proof

/-- `OPC`, bits 7:0 of a command word (30_encoding.md R70). -/
def wordOpc (c : Word) : Byte := c.extractLsb' 0 8

/-- `RSV`, bits 31:8 of a command word (30_encoding.md R70). -/
def wordRsv (c : Word) : BitVec 24 := c.extractLsb' 8 24

/-- The two kinds of illegal word (30_encoding.md R74). -/
inductive DecodeReject where
  /-- `RSV` is not zero. -/
  | reservedBits
  /-- `RSV` is zero and `OPC` lies in 0x0A to 0xFF. -/
  | unmappedOpcode
  deriving DecidableEq, Repr

/-- The `OPC` column of the opcode map (30_encoding.md R72). -/
def Instr.opc : Instr → Byte
  | .nop => 0x00
  | .stride => 0x01
  | .build => 0x02
  | .pack => 0x03
  | .unpack => 0x04
  | .validate => 0x05
  | .encode => 0x06
  | .decode => 0x07
  | .sreset => 0x08
  | .rowoff => 0x09

/-- The operation codes that select a command, in the order of the opcode map (30_encoding.md R72). -/
def ofOpc (o : Byte) : Option Instr :=
  if o = 0x00 then some .nop
  else if o = 0x01 then some .stride
  else if o = 0x02 then some .build
  else if o = 0x03 then some .pack
  else if o = 0x04 then some .unpack
  else if o = 0x05 then some .validate
  else if o = 0x06 then some .encode
  else if o = 0x07 then some .decode
  else if o = 0x08 then some .sreset
  else if o = 0x09 then some .rowoff
  else none

/-- The total decoder: every word is one command or is rejected by name (30_encoding.md R71). -/
def decode (c : Word) : Except DecodeReject Instr :=
  if wordRsv c ≠ 0 then .error .reservedBits
  else
    match ofOpc (wordOpc c) with
    | some i => .ok i
    | none => .error .unmappedOpcode

/-- The command word of an instruction, `zext_32(OPC)` (30_encoding.md R72, R73). -/
def encode (i : Instr) : Word := i.opc.setWidth 32

/-- The command word whose bits are `w`, of which a table row gives `nbits`; every bit above is zero. -/
def tableWord (nbits w : Nat) : Word := (BitVec.ofNat nbits w).setWidth 32

/-- What the decoder reads from the word whose bits are `w` as spec/opcode_table.json numbers them. -/
def decodeTableWord (nbits w : Nat) : Option Instr :=
  match decode (tableWord nbits w) with
  | .ok i => some i
  | .error _ => none

end Sys2Proof
end

