-- ==== Sys2Proof/Machine/Constants.lean ====
section
/-! DEFINITION. The named constants of 00_scope.md R6, under the names the rules use. -/

namespace Sys2Proof.Machine

/-- `K_FH_LEN`, the file header's length (00_scope.md R6). -/
def kFhLen : Nat := 14

/-- `K_IH_LEN`, the info header's length and its own size field (00_scope.md R6). -/
def kIhLen : Nat := 40

/-- `K_HDR_LEN`, both headers together, also the pixel-data offset (00_scope.md R6, 30_encoding.md R80). -/
def kHdrLen : Nat := 54

/-- `K_MAGIC0`, the byte `'B'`; its value is general knowledge the spec states (R6, IMP2; log entry 9). -/
def kMagic0 : Nat := 0x42

/-- `K_MAGIC1`, the byte `'M'`; its value is general knowledge the spec states (R6, IMP2; log entry 9). -/
def kMagic1 : Nat := 0x4D

/-- `K_MAGIC`, the two magic bytes as a little-endian number (00_scope.md R6). -/
def kMagic : Nat := kMagic0 + 256 * kMagic1

/-- `K_PLANES` (00_scope.md R6). -/
def kPlanes : Nat := 1

/-- `K_BPP` (00_scope.md R6). -/
def kBpp : Nat := 24

/-- `K_COMP` (00_scope.md R6). -/
def kComp : Nat := 0

/-- `K_RES`, exactly 11811 (00_scope.md R6; 90_conflicts.md C1). -/
def kRes : Nat := 11811

/-- `K_CLRUSED` (00_scope.md R6). -/
def kClrUsed : Nat := 0

/-- `K_CLRIMP`, 0x01000000 as the source's table has it (00_scope.md R6; IMP5). -/
def kClrImp : Nat := 0x01000000

/-- `K_RSVD` (00_scope.md R6). -/
def kRsvd : Nat := 0

end Sys2Proof.Machine
end

