-- ==== Sys2Proof/Machine/State.lean ====
section
/-! DEFINITION. The state of SHC as plain data (10_state.md R20), the reset state (10_state.md R37), and the names of
the window's registers (20_memory.md R51). Two fields are the model's own, not the spec's: `inputs`, the host accesses
still to come, and `responses`, what the bus has answered (log entries 1 and 2). -/

namespace Sys2Proof.Machine

/-- The 15 header fields, in wire order (10_state.md R31). -/
inductive Field where
  | magic | fsize | rsvd | offbits | isize | width | height | planes | bpp | comp | imgsize | xres | yres
  | clrused | clrimp
  deriving DecidableEq, Repr

/-- The field registers `F[0..14]`, each 32 bits wide (10_state.md R20, R31). -/
structure Fields where
  magic : Word
  fsize : Word
  rsvd : Word
  offbits : Word
  isize : Word
  width : Word
  height : Word
  planes : Word
  bpp : Word
  comp : Word
  imgsize : Word
  xres : Word
  yres : Word
  clrused : Word
  clrimp : Word
  deriving DecidableEq, Repr

/-- The header buffer `HDR` as a list of (position, byte) pairs in the canonical form `Memory.wf` of Machine/Ops.lean;
a position that is not listed reads as its reset value 0x00 (10_state.md R33, R37; log entry 7). -/
abbrev Memory := List Host.Cell

/-- The mapped registers of the window (20_memory.md R51). -/
inductive Reg where
  | ctrl | cmd | status | width | height | stride | pad | row | rowoff
  /-- A header field register. -/
  | field (f : Field)
  /-- A word of the header buffer window. -/
  | hdrw (k : Fin 14)
  deriving DecidableEq, Repr

/-- What reaches SHC from outside: the host's `MemRead(a, n)` and `MemWrite(a, n, v)` at window offset `a`
(00_scope.md R9, 20_memory.md R52), and the hardware reset (70_reset_and_hazards.md R200; log entry 8). -/
inductive Input where
  | read (a n : Nat)
  | write (a n : Nat) (v : Word)
  | hardReset
  deriving DecidableEq, Repr

/-- The bus's answer to one access (20_memory.md R52, 60_exceptions.md R191). -/
inductive Response where
  /-- The value an accepted read returns. -/
  | data (v : Word)
  /-- An accepted write. -/
  | ok
  /-- `BUSERR`. -/
  | busErr
  deriving DecidableEq, Repr

/-- The state: the tuple of 10_state.md R20, and after it the model's own two fields. -/
structure State where
  /-- `CTRL` (10_state.md R28). -/
  ctrl : Word
  /-- `STATUS` (10_state.md R29). -/
  status : Word
  /-- `WIDTH` (10_state.md R22). -/
  width : Word
  /-- `HEIGHT` (10_state.md R23). -/
  height : Word
  /-- `STRIDE` (10_state.md R24). -/
  stride : Word
  /-- `PAD` (10_state.md R25). -/
  pad : Word
  /-- `ROW` (10_state.md R26). -/
  row : Word
  /-- `ROWOFF` (10_state.md R27). -/
  rowoff : Word
  /-- `F[0..14]` (10_state.md R31). -/
  fields : Fields
  /-- `HDR[0..53]` (10_state.md R33). -/
  hdr : Memory
  /-- The model's own: the accesses and resets still to come, oldest first (log entry 1). -/
  inputs : List Input
  /-- The model's own: the responses given so far, newest first (log entry 2). -/
  responses : List Response
  deriving DecidableEq, Repr

/-- No step of SHC ends in a fault: an error is a `STATUS` code (60_exceptions.md R180, R187) and `BUSERR` a response
(R191), both in a next state. The type has no constructor, which is safe: it claims no stop the spec does not give. -/
inductive Fault where
  deriving DecidableEq, Repr

/-- The one refusal the interface asks for. -/
inductive Refusal where
  /-- An instruction without a meaning, by its mnemonic; raised by no arm of `exec`, so it stops no run (safe). -/
  | notModelled (mnemonic : String)
  deriving DecidableEq, Repr

/-- All field registers zero (10_state.md R37). -/
def Fields.reset : Fields :=
  { magic := 0, fsize := 0, rsvd := 0, offbits := 0, isize := 0, width := 0, height := 0, planes := 0, bpp := 0,
    comp := 0, imgsize := 0, xres := 0, yres := 0, clrused := 0, clrimp := 0 }

/-- The state after hardware reset: every register, field register and header byte is zero (10_state.md R37,
70_reset_and_hazards.md R200). No access is pending and none has been answered (log entries 1 and 2). -/
def State.reset : State :=
  { ctrl := 0, status := 0, width := 0, height := 0, stride := 0, pad := 0, row := 0, rowoff := 0,
    fields := Fields.reset, hdr := [], inputs := [], responses := [] }

end Sys2Proof.Machine
end

