-- ==== Sys2Proof/Machine/Operands.lean ====
section
/-! DEFINITION. How operands are read: the numeric readings of a register (00_scope.md R7), the field registers with
their wire layout (10_state.md R31, 30_encoding.md R81), and where each register stands in the window
(20_memory.md R51). -/

namespace Sys2Proof.Machine

/-- `u32(v)`, the unsigned reading (00_scope.md R7). -/
def u32 (v : Word) : Nat := v.toNat

/-- `s32(v) = u32(v) - 2^32 * v[31]`, the two's-complement reading (00_scope.md R7; log entry 10). -/
def s32 (v : Word) : Int := (u32 v : Int) - 4294967296 * ((v.extractLsb' 31 1).toNat : Int)

/-- `bits32(n)`, the pattern of a number already checked to fit (00_scope.md R7). -/
def bits32 (n : Nat) : Word := BitVec.ofNat 32 n

/-- `zext_32(v[15:0])` (10_state.md R31, 20_memory.md R54). -/
def low16 (v : Word) : Word := (v.extractLsb' 0 16).setWidth 32

/-- `zext_32(v[0])` (20_memory.md R54). -/
def low1 (v : Word) : Word := (v.extractLsb' 0 1).setWidth 32

/-- The 15 fields in wire order (10_state.md R31). -/
def Field.all : List Field :=
  [.magic, .fsize, .rsvd, .offbits, .isize, .width, .height, .planes, .bpp, .comp, .imgsize, .xres, .yres, .clrused,
    .clrimp]

/-- The number `i` of `F[i]` (10_state.md R31). -/
def Field.index : Field → Nat
  | .magic => 0
  | .fsize => 1
  | .rsvd => 2
  | .offbits => 3
  | .isize => 4
  | .width => 5
  | .height => 6
  | .planes => 7
  | .bpp => 8
  | .comp => 9
  | .imgsize => 10
  | .xres => 11
  | .yres => 12
  | .clrused => 13
  | .clrimp => 14

/-- The field's byte offset from the start of the file (30_encoding.md R81). -/
def Field.wireOffset : Field → Nat
  | .magic => 0
  | .fsize => 2
  | .rsvd => 6
  | .offbits => 10
  | .isize => 14
  | .width => 18
  | .height => 22
  | .planes => 26
  | .bpp => 28
  | .comp => 30
  | .imgsize => 34
  | .xres => 38
  | .yres => 42
  | .clrused => 46
  | .clrimp => 50

/-- The field's size on the wire in bytes (30_encoding.md R81). -/
def Field.wireSize : Field → Nat
  | .magic => 2
  | .fsize => 4
  | .rsvd => 4
  | .offbits => 4
  | .isize => 4
  | .width => 4
  | .height => 4
  | .planes => 2
  | .bpp => 2
  | .comp => 4
  | .imgsize => 4
  | .xres => 4
  | .yres => 4
  | .clrused => 4
  | .clrimp => 4

/-- The bits of a value that a field register has: 15:0 of a 2-byte field, all of a 4-byte one (10_state.md R31). -/
def Field.existing (f : Field) (v : Word) : Word := if f.wireSize = 2 then low16 v else v

/-- The stored register `F_<f>`. -/
def Fields.raw (F : Fields) : Field → Word
  | .magic => F.magic
  | .fsize => F.fsize
  | .rsvd => F.rsvd
  | .offbits => F.offbits
  | .isize => F.isize
  | .width => F.width
  | .height => F.height
  | .planes => F.planes
  | .bpp => F.bpp
  | .comp => F.comp
  | .imgsize => F.imgsize
  | .xres => F.xres
  | .yres => F.yres
  | .clrused => F.clrused
  | .clrimp => F.clrimp

/-- Reading `F_<f>`, by the host or by a command: bits that do not exist read as zero (10_state.md R31). -/
def Fields.read (F : Fields) (f : Field) : Word := f.existing (F.raw f)

/-- Writing `F_<f>`: bits that do not exist are ignored (10_state.md R31, 20_memory.md R54). -/
def Fields.write (F : Fields) (f : Field) (v : Word) : Fields :=
  match f with
  | .magic => { F with magic := Field.existing .magic v }
  | .fsize => { F with fsize := Field.existing .fsize v }
  | .rsvd => { F with rsvd := Field.existing .rsvd v }
  | .offbits => { F with offbits := Field.existing .offbits v }
  | .isize => { F with isize := Field.existing .isize v }
  | .width => { F with width := Field.existing .width v }
  | .height => { F with height := Field.existing .height v }
  | .planes => { F with planes := Field.existing .planes v }
  | .bpp => { F with bpp := Field.existing .bpp v }
  | .comp => { F with comp := Field.existing .comp v }
  | .imgsize => { F with imgsize := Field.existing .imgsize v }
  | .xres => { F with xres := Field.existing .xres v }
  | .yres => { F with yres := Field.existing .yres v }
  | .clrused => { F with clrused := Field.existing .clrused v }
  | .clrimp => { F with clrimp := Field.existing .clrimp v }

/-- Writing all 15 field registers at once, `F_<f> <- g f`. -/
def Fields.ofFun (g : Field → Word) : Fields :=
  { magic := Field.existing .magic (g .magic), fsize := Field.existing .fsize (g .fsize),
    rsvd := Field.existing .rsvd (g .rsvd), offbits := Field.existing .offbits (g .offbits),
    isize := Field.existing .isize (g .isize), width := Field.existing .width (g .width),
    height := Field.existing .height (g .height), planes := Field.existing .planes (g .planes),
    bpp := Field.existing .bpp (g .bpp), comp := Field.existing .comp (g .comp),
    imgsize := Field.existing .imgsize (g .imgsize), xres := Field.existing .xres (g .xres),
    yres := Field.existing .yres (g .yres), clrused := Field.existing .clrused (g .clrused),
    clrimp := Field.existing .clrimp (g .clrimp) }

/-- The window offset of a register (20_memory.md R51). -/
def Reg.offset : Reg → Nat
  | .ctrl => 0x00
  | .cmd => 0x04
  | .status => 0x08
  | .width => 0x0C
  | .height => 0x10
  | .stride => 0x14
  | .pad => 0x18
  | .row => 0x1C
  | .rowoff => 0x20
  | .field f => 0x40 + 4 * f.index
  | .hdrw k => 0x80 + 4 * k.val

/-- The register mapped at a window offset, none where the offset is reserved, misaligned or outside the window
(20_memory.md R51, R53). -/
def regAt (a : Nat) : Option Reg :=
  if a = 0x00 then some .ctrl
  else if a = 0x04 then some .cmd
  else if a = 0x08 then some .status
  else if a = 0x0C then some .width
  else if a = 0x10 then some .height
  else if a = 0x14 then some .stride
  else if a = 0x18 then some .pad
  else if a = 0x1C then some .row
  else if a = 0x20 then some .rowoff
  else if 0x40 ≤ a ∧ a ≤ 0x78 then (Field.all.find? (fun f => 0x40 + 4 * f.index == a)).map Reg.field
  else if h : 0x80 ≤ a ∧ a ≤ 0xB4 ∧ a % 4 = 0 then some (.hdrw ⟨(a - 0x80) / 4, by omega⟩)
  else none

end Sys2Proof.Machine
end

