-- ==== Sys2Proof/Machine/Flags.lean ====
section
/-! DEFINITION. `STATUS`, the only condition state (10_state.md R29, R35): result codes (60_exceptions.md R181), check
ids (R182) and the word they make (R180). -/

namespace Sys2Proof.Machine

/-- The result codes that are written; 5 to 15 are reserved and have no constructor (60_exceptions.md R181; IMP6). -/
inductive Code where
  | ok | invalidFormat | corrupted | range | illegal
  deriving DecidableEq, Repr

/-- The checks that can end a command; id 14 is reserved and has no constructor (60_exceptions.md R182; IMP6). -/
inductive Check where
  | none | magic | offset | infoSize | planes | bpp | widthNegative | heightNegative | strideRange | sizeRange
  | compression | imageSize | fileSize | rowRange | illegalWord
  deriving DecidableEq, Repr

/-- A failed check: what `raise Error(code, chk)` carries (00_scope.md R9). -/
structure Failure where
  code : Code
  check : Check
  deriving DecidableEq, Repr

/-- The number in `STATUS.ERR` (60_exceptions.md R181). -/
def Code.num : Code → Nat
  | .ok => 0
  | .invalidFormat => 1
  | .corrupted => 2
  | .range => 3
  | .illegal => 4

/-- The number in `STATUS.CHK` (60_exceptions.md R182). -/
def Check.num : Check → Nat
  | .none => 0
  | .magic => 1
  | .offset => 2
  | .infoSize => 3
  | .planes => 4
  | .bpp => 5
  | .widthNegative => 6
  | .heightNegative => 7
  | .strideRange => 8
  | .sizeRange => 9
  | .compression => 10
  | .imageSize => 11
  | .fileSize => 12
  | .rowRange => 13
  | .illegalWord => 15

/-- `zext_32(code) + 2^8 * chk + 2^16 * LASTOP` (60_exceptions.md R180). -/
def statusWord (code : Code) (chk : Check) (lastop : Byte) : Word :=
  BitVec.ofNat 32 (65536 * lastop.toNat + 256 * chk.num + code.num)

/-- `STATUS.ERR`, bits 3:0 (10_state.md R29). -/
def statusErr (v : Word) : BitVec 4 := v.extractLsb' 0 4

/-- `STATUS.CHK`, bits 11:8 (10_state.md R29). -/
def statusChk (v : Word) : BitVec 4 := v.extractLsb' 8 4

/-- `STATUS.LASTOP`, bits 23:16 (10_state.md R29). -/
def statusLastop (v : Word) : Byte := v.extractLsb' 16 8

/-- The bits of `STATUS` that exist; 7:4, 15:12 and 31:24 read as zero (10_state.md R29, 20_memory.md R54). -/
def statusExisting (v : Word) : Word := v &&& 0x00FF0F0F

/-- The `(ERR, CHK)` pairs that a `STATUS` with this `LASTOP` can hold: the table of 60_exceptions.md R183, a word with
reserved bits running ILLEGAL under any low byte, and `(OK, 0)` under 0x00 at hardware reset as well. -/
def statusPairs (lastop : Nat) : List (Nat × Nat) :=
  (4, 15) ::
    match lastop with
    | 0 => [(0, 0)]
    | 1 => [(0, 0), (3, 6), (3, 8)]
    | 2 => [(0, 0), (3, 6), (3, 7), (3, 8), (3, 9)]
    | 3 => [(0, 0)]
    | 4 => [(0, 0)]
    | 5 => [(0, 0), (1, 1), (2, 2), (2, 3), (2, 4), (2, 5), (2, 6), (2, 7), (3, 8), (3, 9), (2, 10), (2, 11), (2, 12)]
    | 6 => [(0, 0), (3, 6), (3, 7), (3, 8), (3, 9)]
    | 7 => [(0, 0), (1, 1), (2, 2), (2, 3), (2, 4), (2, 5), (2, 6), (2, 7), (3, 8), (3, 9), (2, 10), (2, 11), (2, 12)]
    | 8 => [(0, 0)]
    | 9 => [(0, 0), (3, 6), (3, 7), (3, 8), (3, 9), (3, 13)]
    | _ => []

end Sys2Proof.Machine
end

