-- ==== Sys2Proof/Machine/Ops.lean ====
section
/-! DEFINITION. The named operations every command is written from: the header buffer's bytes and words
(10_state.md R33, 20_memory.md R55, 30_encoding.md R82), the state's updates, ending a command with or without an
error (60_exceptions.md R180), and the one stride unit with its range checks (40_stride.md R100 to R104). -/

namespace Sys2Proof.Machine

/-- What a position that is not listed reads as: the reset value of a header byte (10_state.md R37). -/
def Memory.unlisted : Byte := 0x00

/-- The canonical form: positions strictly rising and inside the buffer, no entry equal to `Memory.unlisted`. -/
abbrev Memory.wf (m : Memory) : Prop :=
  m.Pairwise (fun x y => x.1 < y.1) ∧ ∀ c ∈ m, c.1 < Config.hdrBytes ∧ c.2 ≠ Memory.unlisted

/-- The byte listed at a position. -/
def Memory.read : Memory → Nat → Byte
  | [], _ => Memory.unlisted
  | (k, x) :: rest, a => if k = a then x else Memory.read rest a

/-- A listed byte in front of a list, left out where it equals what an unlisted position reads as. -/
def Memory.cons (a : Nat) (b : Byte) (rest : Memory) : Memory := if b = Memory.unlisted then rest else (a, b) :: rest

/-- Replacing the byte at a position, keeping the canonical form. -/
def Memory.write : Memory → Nat → Byte → Memory
  | [], a, b => Memory.cons a b []
  | (k, x) :: rest, a, b =>
    if k < a then (k, x) :: Memory.write rest a b
    else if k = a then Memory.cons a b rest
    else Memory.cons a b ((k, x) :: rest)

/-- `HDRB(j)`: `HDR[j]` for `j < 54`, else 0 (20_memory.md R55). -/
def hdrByte (m : Memory) (j : Nat) : Byte := if j < Config.hdrBytes then Memory.read m j else 0

/-- `if j < 54 then HDR[j] <- b` (20_memory.md R55). -/
def setHdrByte (m : Memory) (j : Nat) (b : Byte) : Memory :=
  if j < Config.hdrBytes then Memory.write m j b else m

/-- The little-endian number in the `n` bytes from position `o` (30_encoding.md R82). -/
def readLE (m : Memory) (o : Nat) : Nat → Nat
  | 0 => 0
  | n + 1 => (hdrByte m o).toNat + 256 * readLE m (o + 1) n

/-- Storing the `n` low bytes of `v` from position `o`, least significant first (30_encoding.md R82). -/
def writeLE (m : Memory) (o : Nat) : Nat → Nat → Memory
  | 0, _ => m
  | n + 1, v => writeLE (setHdrByte m o (BitVec.ofNat 8 v)) (o + 1) n (v / 256)

/-- `read_value(0x80 + 4k)` (20_memory.md R55). -/
def hdrWord (m : Memory) (k : Nat) : Word := bits32 (readLE m (4 * k) 4)

/-- `write_effect(0x80 + 4k, v)` (20_memory.md R55). -/
def setHdrWord (m : Memory) (k : Nat) (v : Word) : Memory := writeLE m (4 * k) 4 (u32 v)

/-- Serializing the fields one by one (41_header_serialize.md R122). -/
def packFields (F : Fields) (m : Memory) : Memory :=
  Field.all.foldl (fun m f => writeLE m f.wireOffset f.wireSize (u32 (F.read f))) m

/-- Deserializing the fields (42_header_deserialize.md R140). -/
def unpackFields (m : Memory) : Fields := Fields.ofFun (fun f => bits32 (readLE m f.wireOffset f.wireSize))

/-- `STATUS <- v`. -/
def State.setStatus (s : State) (v : Word) : State := { s with status := v }

/-- `WIDTH <- w; HEIGHT <- h`. -/
def State.setSize (s : State) (w h : Word) : State := { s with width := w, height := h }

/-- `STRIDE <- st; PAD <- p`: the two are always written together (10_state.md R25). -/
def State.setGeometry (s : State) (st p : Word) : State := { s with stride := st, pad := p }

/-- `ROWOFF <- v`. -/
def State.setRowoff (s : State) (v : Word) : State := { s with rowoff := v }

/-- `F[0..14] <- F`. -/
def State.setFields (s : State) (F : Fields) : State := { s with fields := F }

/-- `HDR[0..53] <- m`. -/
def State.setHdr (s : State) (m : Memory) : State := { s with hdr := m }

/-- The inputs still to come (log entry 1). -/
def State.setInputs (s : State) (l : List Input) : State := { s with inputs := l }

/-- Giving the host a response (20_memory.md R52; log entry 2). -/
def State.respond (s : State) (r : Response) : State := { s with responses := r :: s.responses }

/-- Every register and header byte at its reset value; the host's accesses and what it has heard are not SHC's to
reset (10_state.md R37, 70_reset_and_hazards.md R200). -/
def State.resetRegisters (s : State) : State :=
  { State.reset with inputs := s.inputs, responses := s.responses }

/-- `raise Error(code, chk)`: `STATUS` is written and nothing else; no state is saved and no control transfer happens
(00_scope.md R9, 60_exceptions.md R180). -/
def raiseError (lastop : Byte) (e : Failure) (s : State) : State := s.setStatus (statusWord e.code e.check lastop)

/-- `succeed()` (00_scope.md R9). -/
def succeed (lastop : Byte) (s : State) : State := s.setStatus (statusWord .ok .none lastop)

/-- The end of a command: `body` is its result without its `succeed()`, `failed` the state that an error leaves, which
is the state before the command except for DECODE (60_exceptions.md R180, 42_header_deserialize.md R143). -/
def complete (lastop : Byte) (failed : State) (body : Except Failure State) : Host.Outcome State Fault Refusal :=
  match body with
  | .ok s => .next (succeed lastop s)
  | .error e => .next (raiseError lastop e failed)

/-- `ceil(a/b)` for `b > 0` (00_scope.md R8). -/
def ceilDiv (a b : Nat) : Nat := (a + b - 1) / b

/-- `stride(w) = 4 * ceil(w*3 / 4)`, the one function for every row length (40_stride.md R100, R102). -/
def stride (w : Nat) : Nat := 4 * ceilDiv (w * 3) 4

/-- `stride(w) - 3*w`, the padding of a row (10_state.md R25, 40_stride.md R101). -/
def pad (w : Nat) : Nat := stride w - 3 * w

/-- The number of bytes of a whole file, `54 + stride(w) * h` (40_stride.md R104). -/
def fileSize (w h : Nat) : Nat := kHdrLen + stride w * h

/-- `width_check(w)`, the first failing check (40_stride.md R103). -/
def widthCheck (w : Int) : Option Check :=
  if w < 0 then some .widthNegative
  else if stride w.toNat > Config.maxWord then some .strideRange
  else none

/-- `dims_check(w, h)`, the first failing check (40_stride.md R104). -/
def dimsCheck (w h : Int) : Option Check :=
  if w < 0 then some .widthNegative
  else if h < 0 then some .heightNegative
  else if stride w.toNat > Config.maxWord then some .strideRange
  else if fileSize w.toNat h.toNat > Config.maxWord then some .sizeRange
  else none

/-- `validate_checks()` on the field registers: the first failing check and its code, in the order of the table
(42_header_deserialize.md R141). -/
def validateChecks (xchk : Bool) (F : Fields) : Option Failure :=
  let w := s32 (F.read .width)
  let h := s32 (F.read .height)
  if u32 (F.read .magic) ≠ kMagic then some ⟨.invalidFormat, .magic⟩
  else if u32 (F.read .offbits) ≠ kHdrLen then some ⟨.corrupted, .offset⟩
  else if u32 (F.read .isize) ≠ kIhLen then some ⟨.corrupted, .infoSize⟩
  else if u32 (F.read .planes) ≠ kPlanes then some ⟨.corrupted, .planes⟩
  else if u32 (F.read .bpp) ≠ kBpp then some ⟨.corrupted, .bpp⟩
  else if w < 0 then some ⟨.corrupted, .widthNegative⟩
  else if h < 0 then some ⟨.corrupted, .heightNegative⟩
  else if stride w.toNat > Config.maxWord then some ⟨.range, .strideRange⟩
  else if fileSize w.toNat h.toNat > Config.maxWord then some ⟨.range, .sizeRange⟩
  else if xchk = true ∧ u32 (F.read .comp) ≠ kComp then some ⟨.corrupted, .compression⟩
  else if xchk = true ∧ u32 (F.read .imgsize) ≠ stride w.toNat * h.toNat then some ⟨.corrupted, .imageSize⟩
  else if xchk = true ∧ u32 (F.read .fsize) ≠ fileSize w.toNat h.toNat then some ⟨.corrupted, .fileSize⟩
  else none

/-- `CTRL.XCHK` (10_state.md R28). -/
def State.xchk (s : State) : Bool := s.ctrl.extractLsb' 0 1 == 1#1

/-- `read_value` of a mapped register (20_memory.md R54, R55): `CMD` reads 0, reserved bits read as zero. -/
def readValue (s : State) : Reg → Word
  | .ctrl => low1 s.ctrl
  | .cmd => 0
  | .status => statusExisting s.status
  | .width => s.width
  | .height => s.height
  | .stride => s.stride
  | .pad => s.pad
  | .row => s.row
  | .rowoff => s.rowoff
  | .field f => s.fields.read f
  | .hdrw k => hdrWord s.hdr k.val

/-- `write_effect` of a mapped register other than `CMD` (20_memory.md R54, R55): reserved bits and read-only registers
ignore writes. `CMD` stores nothing (10_state.md R30); the command its write runs is Machine/Bus.lean's. -/
def storeReg (s : State) (r : Reg) (v : Word) : State :=
  match r with
  | .ctrl => { s with ctrl := low1 v }
  | .cmd => s
  | .status => s
  | .width => { s with width := v }
  | .height => { s with height := v }
  | .stride => s
  | .pad => s
  | .row => { s with row := v }
  | .rowoff => s
  | .field f => s.setFields (s.fields.write f v)
  | .hdrw k => s.setHdr (setHdrWord s.hdr k.val v)

/-- The register an access reaches: it is accepted only if it is 4 bytes wide, aligned and at a mapped offset
(20_memory.md R52). -/
def accepted (a n : Nat) : Option Reg :=
  if n = Config.accessBytes ∧ a % 4 = 0 then regAt a else none

end Sys2Proof.Machine
end

