-- ==== Sys2Proof/Machine/Control.lean ====
section
/-! DEFINITION. The control commands NOP and SRESET, and ILLEGAL, what every word runs that selects no command
(43_control.md). -/

namespace Sys2Proof.Machine

/-- NOP (43_control.md R170). -/
def execNop (s : State) : Host.Outcome State Fault Refusal :=
  complete (Instr.opc .nop) s (.ok s)

/-- SRESET (43_control.md R171). -/
def execSreset (s : State) : Host.Outcome State Fault Refusal :=
  complete (Instr.opc .sreset) s (.ok s.resetRegisters)

/-- ILLEGAL on the command word `c`: `raise Error(ILLEGAL, 15)` with `LASTOP = c[7:0]` (43_control.md R172). -/
def execIllegal (c : Word) (s : State) : Host.Outcome State Fault Refusal :=
  complete (wordOpc c) s (.error ⟨.illegal, .illegalWord⟩)

end Sys2Proof.Machine
end

