-- ==== Sys2Proof/Machine/Deserialize.lean ====
section
/-! DEFINITION. The header deserializer's commands UNPACK, VALIDATE and DECODE (42_header_deserialize.md). -/

namespace Sys2Proof.Machine

/-- UNPACK without its `succeed()` (42_header_deserialize.md R140). -/
def unpackBody (s : State) : State := s.setFields (unpackFields s.hdr)

/-- UNPACK (42_header_deserialize.md R140). -/
def execUnpack (s : State) : Host.Outcome State Fault Refusal :=
  complete (Instr.opc .unpack) s (.ok (unpackBody s))

/-- VALIDATE without its `succeed()`: the checks, then the geometry (42_header_deserialize.md R142). -/
def validateBody (s : State) : Except Failure State :=
  match validateChecks s.xchk s.fields with
  | some e => .error e
  | none =>
    let w := (s32 (s.fields.read .width)).toNat
    .ok ((s.setSize (s.fields.read .width) (s.fields.read .height)).setGeometry (bits32 (stride w)) (bits32 (pad w)))

/-- VALIDATE (42_header_deserialize.md R142). -/
def execValidate (s : State) : Host.Outcome State Fault Refusal :=
  complete (Instr.opc .validate) s (validateBody s)

/-- DECODE: UNPACK, then VALIDATE; an error keeps the unpacked field registers (42_header_deserialize.md R143). -/
def execDecode (s : State) : Host.Outcome State Fault Refusal :=
  complete (Instr.opc .decode) (unpackBody s) (validateBody (unpackBody s))

end Sys2Proof.Machine
end

