-- ==== Sys2Proof/Machine/Serialize.lean ====
section
/-! DEFINITION. The header serializer's commands BUILD, PACK and ENCODE (41_header_serialize.md). -/

namespace Sys2Proof.Machine

/-- The value BUILD gives each field register, from the `WIDTH` and `HEIGHT` patterns and `s = stride(w)`,
`h = s32(HEIGHT)` (41_header_serialize.md R120, R121). -/
def buildValue (width height : Word) (s h : Nat) : Field → Word
  | .magic => bits32 kMagic
  | .fsize => bits32 (kHdrLen + s * h)
  | .rsvd => bits32 kRsvd
  | .offbits => bits32 kHdrLen
  | .isize => bits32 kIhLen
  | .width => width
  | .height => height
  | .planes => bits32 kPlanes
  | .bpp => bits32 kBpp
  | .comp => bits32 kComp
  | .imgsize => bits32 (s * h)
  | .xres => bits32 kRes
  | .yres => bits32 kRes
  | .clrused => bits32 kClrUsed
  | .clrimp => bits32 kClrImp

/-- BUILD without its `succeed()` (41_header_serialize.md R120). -/
def buildBody (s : State) : Except Failure State :=
  let w := s32 s.width
  let h := s32 s.height
  match dimsCheck w h with
  | some c => .error ⟨.range, c⟩
  | none =>
    .ok ((s.setFields (Fields.ofFun (buildValue s.width s.height (stride w.toNat) h.toNat))).setGeometry
      (bits32 (stride w.toNat)) (bits32 (pad w.toNat)))

/-- BUILD (41_header_serialize.md R120). -/
def execBuild (s : State) : Host.Outcome State Fault Refusal :=
  complete (Instr.opc .build) s (buildBody s)

/-- PACK without its `succeed()` (41_header_serialize.md R122). -/
def packBody (s : State) : State := s.setHdr (packFields s.fields s.hdr)

/-- PACK (41_header_serialize.md R122). -/
def execPack (s : State) : Host.Outcome State Fault Refusal :=
  complete (Instr.opc .pack) s (.ok (packBody s))

/-- ENCODE without its `succeed()`: BUILD, then PACK if BUILD succeeded (41_header_serialize.md R123). -/
def encodeBody (s : State) : Except Failure State :=
  match buildBody s with
  | .ok t => .ok (packBody t)
  | .error e => .error e

/-- ENCODE (41_header_serialize.md R123). -/
def execEncode (s : State) : Host.Outcome State Fault Refusal :=
  complete (Instr.opc .encode) s (encodeBody s)

end Sys2Proof.Machine
end

