-- ==== Sys2Proof/Machine/Stride.lean ====
section
/-! DEFINITION. The stride calculator's commands STRIDE and ROWOFF (40_stride.md). -/

namespace Sys2Proof.Machine

/-- STRIDE without its `succeed()` (40_stride.md R105). -/
def strideBody (s : State) : Except Failure State :=
  let w := s32 s.width
  match widthCheck w with
  | some c => .error ⟨.range, c⟩
  | none => .ok (s.setGeometry (bits32 (stride w.toNat)) (bits32 (pad w.toNat)))

/-- STRIDE (40_stride.md R105). -/
def execStride (s : State) : Host.Outcome State Fault Refusal :=
  complete (Instr.opc .stride) s (strideBody s)

/-- ROWOFF without its `succeed()` (40_stride.md R106). -/
def rowoffBody (s : State) : Except Failure State :=
  let w := s32 s.width
  let h := s32 s.height
  let r := s32 s.row
  match dimsCheck w h with
  | some c => .error ⟨.range, c⟩
  | none =>
    if r < 0 ∨ r ≥ h then .error ⟨.range, .rowRange⟩
    else .ok (s.setRowoff (bits32 (kHdrLen + (h - 1 - r).toNat * stride w.toNat)))

/-- ROWOFF (40_stride.md R106). -/
def execRowoff (s : State) : Host.Outcome State Fault Refusal :=
  complete (Instr.opc .rowoff) s (rowoffBody s)

end Sys2Proof.Machine
end

