-- ==== Sys2Proof/Machine/Dispatch.lean ====
section
/-! DEFINITION. Dispatch: one arm per command, in the order of the opcode map (30_encoding.md R72). -/

namespace Sys2Proof.Machine

-- Every arm is one direct call of the command's own meaning.
def exec (i : Instr) (s : State) : Host.Outcome State Fault Refusal :=
  match i with
  | .nop => Sys2Proof.Machine.execNop s
  | .stride => Sys2Proof.Machine.execStride s
  | .build => Sys2Proof.Machine.execBuild s
  | .pack => Sys2Proof.Machine.execPack s
  | .unpack => Sys2Proof.Machine.execUnpack s
  | .validate => Sys2Proof.Machine.execValidate s
  | .encode => Sys2Proof.Machine.execEncode s
  | .decode => Sys2Proof.Machine.execDecode s
  | .sreset => Sys2Proof.Machine.execSreset s
  | .rowoff => Sys2Proof.Machine.execRowoff s

end Sys2Proof.Machine
end

