-- ==== Sys2Proof/Machine/Bus.lean ====
section
/-! DEFINITION. The bus: what one access of the host does (20_memory.md R52 to R55, R60), running a command word
(30_encoding.md R71), hardware reset (70_reset_and_hazards.md R200), and host addresses under `SHC_BASE`
(20_memory.md R50). -/

namespace Sys2Proof.Machine

/-- Running the word written to `CMD`: the command it encodes, else ILLEGAL (30_encoding.md R71). -/
def runCommand (c : Word) (s : State) : Host.Outcome State Fault Refusal :=
  match decode c with
  | .ok i => exec i s
  | .error _ => execIllegal c s

/-- `MemRead(a, n)` (20_memory.md R52). -/
def memRead (a n : Nat) (s : State) : Host.Outcome State Fault Refusal :=
  match accepted a n with
  | some r => .next (s.respond (.data (readValue s r)))
  | none => .next (s.respond .busErr)

/-- `MemWrite(a, n, v)` (20_memory.md R52, R54): a write of `CMD` runs its command inside the access (R60). -/
def memWrite (a n : Nat) (v : Word) (s : State) : Host.Outcome State Fault Refusal :=
  match accepted a n with
  | some .cmd => runCommand v (s.respond .ok)
  | some r => .next (storeReg (s.respond .ok) r v)
  | none => .next (s.respond .busErr)

/-- What one input does. -/
def perform (i : Input) (s : State) : Host.Outcome State Fault Refusal :=
  match i with
  | .read a n => memRead a n s
  | .write a n v => memWrite a n v s
  | .hardReset => .next s.resetRegisters

/-- An access as the platform's bus carries it, at a host address. -/
inductive HostRequest where
  | read (addr n : Nat)
  | write (addr n : Nat) (v : Word)
  deriving DecidableEq, Repr

/-- The window offset of a host address, for a window that begins at `base = SHC_BASE`; none where the address is not
in the window (20_memory.md R50; log entry 5). -/
def windowOffset (base addr : Nat) : Option Nat :=
  if base ≤ addr ∧ addr < base + Config.windowBytes then some (addr - base) else none

/-- The access SHC sees of a host request, none where the request is not SHC's (20_memory.md R50; log entry 5). -/
def HostRequest.toInput (base : Nat) : HostRequest → Option Input
  | .read addr n => (windowOffset base addr).map (fun a => .read a n)
  | .write addr n v => (windowOffset base addr).map (fun a => .write a n v)

/-- The host issues requests, in order, after the accesses already pending (20_memory.md R59; log entry 1). -/
def State.issue (s : State) (base : Nat) (l : List HostRequest) : State :=
  s.setInputs (s.inputs ++ l.filterMap (HostRequest.toInput base))

end Sys2Proof.Machine
end

