-- ==== Sys2Proof/Machine/HostProgram.lean ====
section
/-! DEFINITION. The notation of host programs and its pseudo-instructions, as accesses (30_encoding.md R75, R76). -/

namespace Sys2Proof.Machine

/-- `WR <reg>, <value>`. -/
def wr (r : Reg) (v : Word) : Input := .write r.offset Config.accessBytes v

/-- `WR` at a raw offset. -/
def wrRaw (a : Nat) (v : Word) : Input := .write a Config.accessBytes v

/-- `RD <reg>`. -/
def rd (r : Reg) : Input := .read r.offset Config.accessBytes

/-- `RD` at a raw offset. -/
def rdRaw (a : Nat) : Input := .read a Config.accessBytes

/-- `CMD <mnemonic>`. -/
def cmd (i : Instr) : Input := wr .cmd (encode i)

/-- `WRHDR k, v`. -/
def wrhdr (k : Fin 14) (v : Word) : Input := wr (.hdrw k) v

/-- The little-endian number of a list of bytes, `from_le` (00_scope.md R9). -/
def fromLE : List Byte → Nat
  | [] => 0
  | b :: rest => b.toNat + 256 * fromLE rest

/-- `LOADHDR b0, …, b53`: 14 window writes, the bytes missing at the end being 0. -/
def loadhdr (bytes : List Byte) : List Input :=
  (List.finRange 14).map (fun k => wrhdr k (bits32 (fromLE ((bytes.take Config.hdrBytes).drop (4 * k.val) |>.take 4))))

/-- The value `RDSTATUS => e, c, op` states for its read of `STATUS`. -/
def rdstatusValue (e c op : Nat) : Word := bits32 (65536 * op + 256 * c + e)

end Sys2Proof.Machine
end

