-- ==== Sys2Proof/Machine/Step.lean ====
section
/-! DEFINITION. One step: the oldest pending input takes effect, whole (20_memory.md R58 to R60). SHC has no program
counter and fetches nothing (10_state.md R34): a command comes from a write to `CMD`. -/

namespace Sys2Proof.Machine

/-- One step. With no input pending nothing happens, since SHC acts only in an access (10_state.md R36,
70_reset_and_hazards.md R200; log entry 3). -/
def step (s : State) : Host.Outcome State Fault Refusal :=
  match s.inputs with
  | [] => .next s
  | i :: rest => perform i (s.setInputs rest)

/-- The state whose very next step runs the command word whose bits are `w`: the host's write of that word to `CMD`
stands in front of its other accesses (30_encoding.md R70; log entry 1). -/
def State.withFetchWord (s : State) (nbits w : Nat) : State :=
  s.setInputs (wr .cmd (tableWord nbits w) :: s.inputs)

end Sys2Proof.Machine
end

