-- ==== Sys2Proof/Safety.lean ====
section
/-! DEFINITION. The terms claims use: a step that goes on, the invariant of every run, when dimensions fit, and the
header checks by number. Row lengths, ranges and checks are written out here from the rules, on exact integers, not
taken from the functions the meanings call, so that a claim compares the two. -/

namespace Sys2Proof.Machine

/-- A step from `s` goes on: no fault and no refusal (60_exceptions.md R187). -/
def State.GoesOn (s : State) : Prop := ∃ t, step s = Host.Outcome.next t

/-- `4 * ceil(w*3/4)`, the ceiling of a quotient being minus the floor of its negative (40_stride.md R100). -/
def rowBytes (w : Int) : Int := 4 * -(-(w * 3) / 4)

/-- The dimensions a command accepts: neither is negative, and the row length and the file size fit 32 bits
(40_stride.md R104). -/
abbrev DimsFit (w h : Int) : Prop := 0 ≤ w ∧ 0 ≤ h ∧ rowBytes w ≤ 4294967295 ∧ 54 + rowBytes w * h ≤ 4294967295

/-- Check `n` is the first of the dimension checks 6 to 9 to fail (40_stride.md R104, 60_exceptions.md R184). -/
def DimsFailure (w h : Int) (n : Nat) : Prop :=
  match n with
  | 6 => w < 0
  | 7 => 0 ≤ w ∧ h < 0
  | 8 => 0 ≤ w ∧ 0 ≤ h ∧ rowBytes w > 4294967295
  | 9 => 0 ≤ w ∧ 0 ≤ h ∧ rowBytes w ≤ 4294967295 ∧ 54 + rowBytes w * h > 4294967295
  | _ => False

/-- The word of `STATUS` with a result code, a check id and the low byte of the command word
(10_state.md R29, 60_exceptions.md R180). -/
def statusOf (err chk lastop : Nat) : Word := BitVec.ofNat 32 (65536 * lastop + 256 * chk + err)

/-- The condition of check `n`, 1 to 12, on the field registers and `CTRL.XCHK` (42_header_deserialize.md R141). -/
def CheckFails (xchk : Bool) (F : Fields) (n : Nat) : Prop :=
  match n with
  | 1 => (F.read .magic).toNat ≠ kMagic
  | 2 => (F.read .offbits).toNat ≠ 54
  | 3 => (F.read .isize).toNat ≠ 40
  | 4 => (F.read .planes).toNat ≠ 1
  | 5 => (F.read .bpp).toNat ≠ 24
  | 6 => s32 (F.read .width) < 0
  | 7 => s32 (F.read .height) < 0
  | 8 => rowBytes (s32 (F.read .width)) > 4294967295
  | 9 => 54 + rowBytes (s32 (F.read .width)) * s32 (F.read .height) > 4294967295
  | 10 => xchk = true ∧ (F.read .comp).toNat ≠ 0
  | 11 => xchk = true ∧ ((F.read .imgsize).toNat : Int) ≠ rowBytes (s32 (F.read .width)) * s32 (F.read .height)
  | 12 => xchk = true ∧ ((F.read .fsize).toNat : Int) ≠ 54 + rowBytes (s32 (F.read .width)) * s32 (F.read .height)
  | _ => False

/-- The result code of check `n` in VALIDATE and DECODE (42_header_deserialize.md R141). -/
def checkCode (n : Nat) : Nat := if n = 1 then 1 else if n = 8 ∨ n = 9 then 3 else 2

/-- Check `n` fails and none before it does (60_exceptions.md R184). -/
def FirstFailure (xchk : Bool) (F : Fields) (n : Nat) : Prop :=
  CheckFails xchk F n ∧ ∀ m, m < n → ¬CheckFails xchk F m

/-- A header passes every check (42_header_deserialize.md R141). -/
def HeaderPasses (xchk : Bool) (F : Fields) : Prop := ∀ n, ¬CheckFails xchk F n

/-- The mapped offsets of the window, for an aligned `a` (20_memory.md R51). -/
abbrev Mapped (a : Nat) : Prop := a ≤ 0x20 ∨ (0x40 ≤ a ∧ a ≤ 0x78) ∨ (0x80 ≤ a ∧ a ≤ 0xB4)

/-- An access SHC accepts (20_memory.md R52). -/
abbrev Accepted (a n : Nat) : Prop := n = 4 ∧ a % 4 = 0 ∧ Mapped a

/-- What every run of the machine keeps. -/
structure State.Inv (s : State) : Prop where
  /-- The header buffer is in canonical form (log entry 7). -/
  hdr : Memory.wf s.hdr
  /-- `CTRL[31:1]` is zero (10_state.md R28). -/
  ctrl : s.ctrl.toNat < 2
  /-- The reserved bits of `STATUS` are zero (10_state.md R29). -/
  statusBits : statusExisting s.status = s.status
  /-- `STATUS` holds a pair its `LASTOP` can report (60_exceptions.md R183). -/
  statusPair : ((statusErr s.status).toNat, (statusChk s.status).toNat) ∈ statusPairs (statusLastop s.status).toNat
  /-- Bits 31:16 of the 2-byte field registers are zero (10_state.md R31). -/
  fields : ∀ f, s.fields.raw f = s.fields.read f
  /-- `STRIDE` and `PAD` belong to one width (10_state.md R24, R25). -/
  geometry : ∃ w : Int, 0 ≤ w ∧ rowBytes w ≤ 4294967295 ∧ s.stride = BitVec.ofInt 32 (rowBytes w) ∧
    s.pad = BitVec.ofInt 32 (rowBytes w - 3 * w)
  /-- `ROWOFF` is its reset value or the offset of a stored row (10_state.md R27, 40_stride.md R106). -/
  rowoff : s.rowoff = 0 ∨ ∃ w j : Int, 0 ≤ w ∧ 0 ≤ j ∧ 54 + j * rowBytes w ≤ 4294967295 ∧
    s.rowoff = BitVec.ofInt 32 (54 + j * rowBytes w)

end Sys2Proof.Machine
end

