-- ==== Sys2Proof/Certificates/Slice0/Obligations.lean ====
section
/-! DEFINITION. The statements, from the numbered rules of spec/. Each is about every state: a premise is either a
condition the rule itself names or `Memory.wf s.hdr`, the canonical form of the header buffer, which every run keeps
(Obligations.StepKeepsInvariant). A record update names every register a command writes, so all the others, the flags
and each header byte stay as they were; that it also keeps the model's own `inputs` and `responses` is the model's
choice (log entries 1 and 2). Signed readings are `s32`, two's complement as 00_scope.md R7 has it (log entry 10). -/

open Sys2Proof Sys2Proof.Machine

/-! ### Encoding -/

/-- 30_encoding.md R72: the opcode map, and that a word selects a command exactly when it is that command's word. -/
def Obligations.DecodeIsTheOpcodeMap : Prop :=
  (encode .nop = 0x00000000#32 ∧ encode .stride = 0x00000001#32 ∧ encode .build = 0x00000002#32 ∧
    encode .pack = 0x00000003#32 ∧ encode .unpack = 0x00000004#32 ∧ encode .validate = 0x00000005#32 ∧
    encode .encode = 0x00000006#32 ∧ encode .decode = 0x00000007#32 ∧ encode .sreset = 0x00000008#32 ∧
    encode .rowoff = 0x00000009#32) ∧
  ∀ (c : Word) (i : Instr), decode c = .ok i ↔ c = encode i

/-- 30_encoding.md R74: the two kinds of illegal word, each rejected by name; no other word is. -/
def Obligations.IllegalWordsAreRejected : Prop :=
  ∀ c : Word,
    (decode c = .error .reservedBits ↔ c.toNat / 256 ≠ 0) ∧
    (decode c = .error .unmappedOpcode ↔ c.toNat / 256 = 0 ∧ 9 < c.toNat % 256) ∧
    ((∃ i, decode c = .ok i) ↔ c.toNat ≤ 9)

/-- Words written out from the opcode map of 30_encoding.md R72 decode to the commands they stand for. -/
def Obligations.DecodeReadsTableWords : Prop :=
  decode 0b00000000000000000000000000000101#32 = .ok .validate ∧
  decode 0b00000000000000000000000000000110#32 = .ok .encode ∧
  decode 0b00000000000000000000000000001001#32 = .ok .rowoff ∧
  decode 0b00000000000000000000000000001010#32 = .error .unmappedOpcode ∧
  decode 0b00000000000000000000000100000001#32 = .error .reservedBits

/-- 30_encoding.md R81: the wire offset and size of each of the 15 fields, and that they tile bytes 0 to 53, each byte
in exactly one field. -/
def Obligations.FieldsTileTheHeader : Prop :=
  ([Field.magic, .fsize, .rsvd, .offbits, .isize, .width, .height, .planes, .bpp, .comp, .imgsize, .xres, .yres, .clrused,
      .clrimp].map (fun f => (f.wireOffset, f.wireSize)) =
    [(0, 2), (2, 4), (6, 4), (10, 4), (14, 4), (18, 4), (22, 4), (26, 2), (28, 2), (30, 4), (34, 4), (38, 4), (42, 4),
      (46, 4), (50, 4)]) ∧
  (∀ j, j < 54 → ∃ f : Field, (f.wireOffset ≤ j ∧ j < f.wireOffset + f.wireSize) ∧
    ∀ g : Field, g.wireOffset ≤ j ∧ j < g.wireOffset + g.wireSize → g = f) ∧
  ∀ f : Field, f.wireOffset + f.wireSize ≤ 54

/-! ### The stride unit -/

/-- 40_stride.md R100: the stride function is `4 * ceil(w*3/4)`, never less than `3w`, and a multiple of 4. -/
def Obligations.StrideFunction : Prop :=
  ∀ w : Nat, (stride w : Int) = 4 * ⌈((w : ℚ) * 3) / 4⌉ ∧ 3 * w ≤ stride w ∧ 4 ∣ stride w

/-- The term of the statements for a row length is the ceiling of 40_stride.md R100 as well. -/
def Obligations.RowBytesIsTheCeiling : Prop := ∀ w : Int, rowBytes w = 4 * ⌈((w : ℚ) * 3) / 4⌉

/-- 40_stride.md R101: the forms and properties of the stride function. -/
def Obligations.StrideProperties : Prop :=
  (∀ w : Nat, stride w = ((3 * w + 3) / 4) * 4 ∧ stride w = 3 * w + w % 4 ∧ pad w = stride w - 3 * w ∧
    pad w = w % 4 ∧ stride w % 4 = 0 ∧ 3 * w ≤ stride w ∧ stride w ≤ 3 * w + 3 ∧ stride (w + 4) = stride w + 12) ∧
  ∀ v w : Nat, v ≤ w → stride v ≤ stride w

/-- 40_stride.md R103: the width check returns the first failing check; it passes exactly the widths up to
1431655764. -/
def Obligations.WidthCheckFirstFailure : Prop :=
  ∀ w : Int,
    (widthCheck w = some .widthNegative ↔ w < 0) ∧
    (widthCheck w = some .strideRange ↔ 0 ≤ w ∧ rowBytes w > 2 ^ 32 - 1) ∧
    (widthCheck w = none ↔ 0 ≤ w ∧ rowBytes w ≤ 2 ^ 32 - 1) ∧
    (widthCheck w = none ↔ 0 ≤ w ∧ w ≤ 1431655764)

/-- 40_stride.md R104: the dimension check returns the first failing check. -/
def Obligations.DimsCheckFirstFailure : Prop :=
  ∀ w h : Int,
    (∀ c : Check, dimsCheck w h = some c ↔ DimsFailure w h c.num) ∧ (dimsCheck w h = none ↔ DimsFit w h)

/-! ### Results of the commands -/

/-- 43_control.md R170: NOP writes `STATUS` and nothing else, always with success, and no command but SRESET is like it
in that. -/
def Obligations.NopWritesStatusOnly : Prop :=
  encode .nop = 0x00000000#32 ∧
  (∀ s : State, exec .nop s = .next { s with status := 0x00000000#32 }) ∧
  ∀ i : Instr, i ≠ .nop → i ≠ .sreset →
    ∃ s : State, exec i s ≠ .next { s with status := statusOf 0 0 i.opc.toNat }

/-- 43_control.md R171: SRESET puts every register and header byte at its reset value, `LASTOP` being 0x08. -/
def Obligations.SresetClearsEverything : Prop :=
  encode .sreset = 0x00000008#32 ∧
  ∀ s : State, ∃ t : State, exec .sreset s = .next t ∧ t.status = 0x00080000#32 ∧ t.ctrl = 0 ∧ t.width = 0 ∧
    t.height = 0 ∧ t.stride = 0 ∧ t.pad = 0 ∧ t.row = 0 ∧ t.rowoff = 0 ∧ (∀ f : Field, t.fields.raw f = 0) ∧
    ∀ j, Memory.read t.hdr j = 0

/-- 40_stride.md R105: STRIDE. -/
def Obligations.StrideResult : Prop :=
  encode .stride = 0x00000001#32 ∧
  ∀ s : State,
    (0 ≤ s32 s.width → s32 s.width ≤ 1431655764 → exec .stride s = .next { s with
      stride := BitVec.ofInt 32 (rowBytes (s32 s.width)),
      pad := BitVec.ofInt 32 (rowBytes (s32 s.width) - 3 * s32 s.width),
      status := 0x00010000#32 }) ∧
    (s32 s.width < 0 → exec .stride s = .next { s with status := statusOf 3 6 1 }) ∧
    (1431655764 < s32 s.width → exec .stride s = .next { s with status := statusOf 3 8 1 })

/-- 40_stride.md R105: running STRIDE twice gives the same result. -/
def Obligations.StrideTwiceIsStride : Prop :=
  ∀ s t : State, exec .stride s = .next t → exec .stride t = .next t

/-- 40_stride.md R106: ROWOFF, with its result no greater than the file's length less one row. -/
def Obligations.RowoffResult : Prop :=
  encode .rowoff = 0x00000009#32 ∧
  ∀ s : State,
    (DimsFit (s32 s.width) (s32 s.height) → 0 ≤ s32 s.row → s32 s.row < s32 s.height →
      exec .rowoff s = .next { s with
        rowoff := BitVec.ofInt 32 (54 + (s32 s.height - 1 - s32 s.row) * rowBytes (s32 s.width)),
        status := 0x00090000#32 } ∧
      54 + (s32 s.height - 1 - s32 s.row) * rowBytes (s32 s.width) ≤
        54 + rowBytes (s32 s.width) * s32 s.height - rowBytes (s32 s.width)) ∧
    (∀ n, DimsFailure (s32 s.width) (s32 s.height) n →
      exec .rowoff s = .next { s with status := statusOf 3 n 9 }) ∧
    (DimsFit (s32 s.width) (s32 s.height) → s32 s.row < 0 ∨ s32 s.height ≤ s32 s.row →
      exec .rowoff s = .next { s with status := statusOf 3 13 9 })

/-- 41_header_serialize.md R120: BUILD, with every value it writes. -/
def Obligations.BuildResult : Prop :=
  encode .build = 0x00000002#32 ∧
  ∀ s : State,
    (DimsFit (s32 s.width) (s32 s.height) → exec .build s = .next { s with
      fields := {
        magic := BitVec.ofNat 32 kMagic
        fsize := BitVec.ofInt 32 (54 + rowBytes (s32 s.width) * s32 s.height)
        rsvd := 0
        offbits := 54
        isize := 40
        width := s.width
        height := s.height
        planes := 1
        bpp := 24
        comp := 0
        imgsize := BitVec.ofInt 32 (rowBytes (s32 s.width) * s32 s.height)
        xres := 11811
        yres := 11811
        clrused := 0
        clrimp := 0x01000000#32 },
      stride := BitVec.ofInt 32 (rowBytes (s32 s.width)),
      pad := BitVec.ofInt 32 (rowBytes (s32 s.width) - 3 * s32 s.width),
      status := 0x00020000#32 }) ∧
    ∀ n, DimsFailure (s32 s.width) (s32 s.height) n → exec .build s = .next { s with status := statusOf 3 n 2 }

/-- 41_header_serialize.md R122: PACK writes each field's bytes, least significant first, at its wire offset, and
nothing but the 54 header bytes and `STATUS`. -/
def Obligations.PackWritesWireBytes : Prop :=
  encode .pack = 0x00000003#32 ∧
  ∀ s : State, Memory.wf s.hdr → ∃ t : State, exec .pack s = .next t ∧
    t = { s with hdr := t.hdr, status := 0x00030000#32 } ∧
    (∀ (f : Field) (j : Nat), j < f.wireSize →
      Memory.read t.hdr (f.wireOffset + j) = (s.fields.raw f).extractLsb' (8 * j) 8) ∧
    ∀ a, 54 ≤ a → Memory.read t.hdr a = Memory.read s.hdr a

/-- 41_header_serialize.md R123: ENCODE is BUILD and then PACK, and only a `STATUS` with BUILD's error if BUILD fails. -/
def Obligations.EncodeIsBuildThenPack : Prop :=
  encode .encode = 0x00000006#32 ∧
  ∀ s : State,
    (DimsFit (s32 s.width) (s32 s.height) → ∃ t u : State, exec .build s = .next t ∧ exec .pack t = .next u ∧
      exec .encode s = .next { u with status := 0x00060000#32 }) ∧
    ∀ n, DimsFailure (s32 s.width) (s32 s.height) n → exec .encode s = .next { s with status := statusOf 3 n 6 }

/-- 42_header_deserialize.md R140: UNPACK gives each field register the little-endian number of its wire bytes, zero
extended, and changes nothing but the field registers and `STATUS`. -/
def Obligations.UnpackReadsWireBytes : Prop :=
  encode .unpack = 0x00000004#32 ∧
  ∀ s : State, ∃ t : State, exec .unpack s = .next t ∧
    t = { s with fields := t.fields, status := 0x00040000#32 } ∧
    ∀ f : Field, (∀ j, j < f.wireSize →
      (t.fields.raw f).extractLsb' (8 * j) 8 = Memory.read s.hdr (f.wireOffset + j)) ∧
      (t.fields.raw f).toNat < 256 ^ f.wireSize

/-- 42_header_deserialize.md R141 and R142: VALIDATE reports the first failing check, and loads the geometry of a
header that passes. -/
def Obligations.ValidateResult : Prop :=
  encode .validate = 0x00000005#32 ∧
  ∀ s : State,
    (∀ n, FirstFailure (s.ctrl.getLsbD 0) s.fields n →
      exec .validate s = .next { s with status := statusOf (checkCode n) n 5 }) ∧
    (HeaderPasses (s.ctrl.getLsbD 0) s.fields → exec .validate s = .next { s with
      width := s.fields.width,
      height := s.fields.height,
      stride := BitVec.ofInt 32 (rowBytes (s32 s.fields.width)),
      pad := BitVec.ofInt 32 (rowBytes (s32 s.fields.width) - 3 * s32 s.fields.width),
      status := 0x00050000#32 })

/-- 42_header_deserialize.md R145: a second VALIDATE gives the same `STATUS`, and here the same state. -/
def Obligations.ValidateTwiceIsValidate : Prop :=
  ∀ s t : State, exec .validate s = .next t → exec .validate t = .next t

/-- 42_header_deserialize.md R143: DECODE writes the fields UNPACK writes, whether or not they then pass, and goes on as
VALIDATE does. -/
def Obligations.DecodeResult : Prop :=
  encode .decode = 0x00000007#32 ∧
  ∀ s : State, ∃ F : Fields, exec .unpack s = .next { s with fields := F, status := 0x00040000#32 } ∧
    (∀ n, FirstFailure (s.ctrl.getLsbD 0) F n →
      exec .decode s = .next { s with fields := F, status := statusOf (checkCode n) n 7 }) ∧
    (HeaderPasses (s.ctrl.getLsbD 0) F → exec .decode s = .next { s with
      fields := F,
      width := F.width,
      height := F.height,
      stride := BitVec.ofInt 32 (rowBytes (s32 F.width)),
      pad := BitVec.ofInt 32 (rowBytes (s32 F.width) - 3 * s32 F.width),
      status := 0x00070000#32 })

/-- 43_control.md R172: a word that selects no command, written to `CMD`, is accepted and writes `STATUS` with
`ILLEGAL` and check 15, and nothing else. It speaks of the words this decoder rejects: a later revision may give such a
word a meaning (30_encoding.md R74; log entry 6). -/
def Obligations.IllegalWordWritesStatusOnly : Prop :=
  ∀ (s : State) (c : Word) (rest : List Input), s.inputs = .write 0x04 4 c :: rest →
    (c.toNat / 256 ≠ 0 ∨ 9 < c.toNat % 256) →
    step s = .next { s with
      status := statusOf 4 15 (c.toNat % 256), inputs := rest, responses := .ok :: s.responses }

/-! ### The header codec as a whole -/

/-- PACK followed by UNPACK gives back every field register. -/
def Obligations.UnpackInvertsPack : Prop :=
  ∀ s : State, Memory.wf s.hdr → ∃ t u : State, exec .pack s = .next t ∧ exec .unpack t = .next u ∧
    (∀ f : Field, u.fields.raw f = s.fields.read f) ∧ u.hdr = t.hdr

/-- UNPACK followed by PACK changes no header byte. -/
def Obligations.PackInvertsUnpack : Prop :=
  ∀ s : State, Memory.wf s.hdr → ∃ t u : State, exec .unpack s = .next t ∧ exec .pack t = .next u ∧
    u.hdr = s.hdr ∧ u.fields = t.fields

/-- DECODE, by any instance and with either `XCHK`, of the header bytes ENCODE wrote succeeds and restores the same
geometry. -/
def Obligations.DecodeInvertsEncode : Prop :=
  ∀ s : State, Memory.wf s.hdr → DimsFit (s32 s.width) (s32 s.height) → ∃ t : State, exec .encode s = .next t ∧
    ∀ v : State, v.hdr = t.hdr → exec .decode v = .next { v with
      fields := t.fields, width := s.width, height := s.height, stride := t.stride, pad := t.pad,
      status := 0x00070000#32 }

/-- 42_header_deserialize.md R144: the fields no check reads do not matter to VALIDATE; with `XCHK` off, neither do
compression and the two sizes. -/
def Obligations.UncheckedFieldsDoNotMatter : Prop :=
  ∀ (s : State) (F : Fields),
    (∀ f ∈ [Field.magic, .offbits, .isize, .width, .height, .planes, .bpp], F.read f = s.fields.read f) →
    (s.ctrl.getLsbD 0 = true → ∀ f ∈ [Field.comp, .imgsize, .fsize], F.read f = s.fields.read f) →
    ∃ t : State, exec .validate s = .next t ∧ exec .validate { s with fields := F } = .next { t with fields := F }

/-! ### Rules over all commands -/

/-- 10_state.md R29: every command rewrites `STATUS`, with its own operation code in `LASTOP`, a result code of 0 to 3
and zero reserved bits. -/
def Obligations.EveryCommandReports : Prop :=
  ∀ (i : Instr) (s t : State), exec i s = .next t →
    t.status.extractLsb' 16 8 = i.opc ∧ (t.status.extractLsb' 0 4).toNat ≤ 3 ∧ t.status &&& 0xFF00F0F0#32 = 0#32

/-- The pairs 60_exceptions.md R183 allows each command; checks 10 to 12 only with `XCHK`. -/
def Obligations.CommandsReportTheirPairs : Prop :=
  ∀ (i : Instr) (s t : State), exec i s = .next t →
    ((statusErr t.status).toNat, (statusChk t.status).toNat) ∈ (statusPairs i.opc.toNat).erase (4, 15) ∧
    (s.ctrl.getLsbD 0 = false → (statusChk t.status).toNat ∉ [10, 11, 12])

/-- 60_exceptions.md R180: a command that ends with an error changes nothing but `STATUS`; DECODE keeps the unpacked
field registers as well. -/
def Obligations.FailureWritesStatusOnly : Prop :=
  ∀ (i : Instr) (s t : State), exec i s = .next t → t.status.extractLsb' 0 4 ≠ 0#4 →
    (i ≠ .decode → t = { s with status := t.status }) ∧
    (i = .decode → t = { s with status := t.status, fields := t.fields } ∧
      ∃ u : State, exec .unpack s = .next u ∧ t.fields = u.fields)

/-- What each command may write, by register (10_state.md R21, R26, R28, R32, R33). -/
def Obligations.CommandsWriteTheirRegisters : Prop :=
  ∀ (i : Instr) (s t : State), exec i s = .next t → i ≠ .sreset →
    t.ctrl = s.ctrl ∧ t.row = s.row ∧
    (i ∉ [Instr.validate, .decode] → t.width = s.width ∧ t.height = s.height) ∧
    (i ∉ [Instr.stride, .build, .encode, .validate, .decode] → t.stride = s.stride ∧ t.pad = s.pad) ∧
    (i ≠ .rowoff → t.rowoff = s.rowoff) ∧
    (i ∉ [Instr.build, .encode, .unpack, .decode] → t.fields = s.fields) ∧
    (i ∉ [Instr.pack, .encode] → ∀ a, Memory.read t.hdr a = Memory.read s.hdr a)

/-- 10_state.md R35: no command's behaviour depends on an earlier `STATUS`. -/
def Obligations.StatusIsNeverRead : Prop :=
  ∀ (i : Instr) (s : State) (v : Word), exec i { s with status := v } = exec i s

/-- 10_state.md R28, 70_reset_and_hazards.md R208: of `CTRL` a command reads `XCHK` at most, and only VALIDATE and DECODE
read that. -/
def Obligations.OnlyXchkOfCtrlIsRead : Prop :=
  ∀ (i : Instr) (s t : State) (c : Word), exec i s = .next t → i ≠ .sreset →
    c.getLsbD 0 = s.ctrl.getLsbD 0 ∨ i ∉ [Instr.validate, .decode] →
    exec i { s with ctrl := c } = .next { t with ctrl := c }

/-- 10_state.md R21: no command reads `STRIDE`, `PAD` or `ROWOFF`, so what is stale there reaches no other register. -/
def Obligations.StaleResultsAreNeverRead : Prop :=
  ∀ (i : Instr) (s t : State) (st p r : Word), exec i s = .next t →
    ∃ u : State, exec i { s with stride := st, pad := p, rowoff := r } = .next u ∧
      u = { t with stride := u.stride, pad := u.pad, rowoff := u.rowoff } ∧
      (i ∈ [Instr.stride, .build, .encode, .validate, .decode] → t.status.extractLsb' 0 4 = 0#4 →
        u.stride = t.stride ∧ u.pad = t.pad) ∧
      (i = .rowoff → t.status.extractLsb' 0 4 = 0#4 → u.rowoff = t.rowoff)

/-- No command touches the model's own fields, the host's accesses and what it was answered (log entries 1 and 2). -/
def Obligations.CommandsLeaveTheHostSide : Prop :=
  ∀ (i : Instr) (s t : State), exec i s = .next t → t.inputs = s.inputs ∧ t.responses = s.responses

/-! ### The bus -/

/-- A step whose access writes a command word to `CMD` is `exec` of the decoded command at the state without that
access, the write being answered (30_encoding.md R71; the two last updates are the model's, log entries 1 and 2). -/
def Obligations.StepRunsTheDecodedCommand : Prop :=
  ∀ (s : State) (c : Word) (i : Instr) (rest : List Input), s.inputs = .write 0x04 4 c :: rest → decode c = .ok i →
    step s = exec i { s with inputs := rest, responses := .ok :: s.responses }

/-- 60_exceptions.md R191, 20_memory.md R53: an access that is not accepted is answered `BUSERR` and changes no
register. -/
def Obligations.RefusedAccessChangesNothing : Prop :=
  ∀ (s : State) (a n : Nat) (rest : List Input), ¬Accepted a n →
    (s.inputs = .read a n :: rest →
      step s = .next { s with inputs := rest, responses := .busErr :: s.responses }) ∧
    ∀ v : Word, s.inputs = .write a n v :: rest →
      step s = .next { s with inputs := rest, responses := .busErr :: s.responses }

/-- 20_memory.md R51: where each register stands; each aligned mapped offset is that of exactly one register, and no
register stands elsewhere. -/
def Obligations.RegisterMapIsOneToOne : Prop :=
  ([Reg.ctrl, .cmd, .status, .width, .height, .stride, .pad, .row, .rowoff].map Reg.offset =
    [0x00, 0x04, 0x08, 0x0C, 0x10, 0x14, 0x18, 0x1C, 0x20]) ∧
  ([Field.magic, .fsize, .rsvd, .offbits, .isize, .width, .height, .planes, .bpp, .comp, .imgsize, .xres, .yres, .clrused,
      .clrimp].map (fun f => (Reg.field f).offset) =
    [0x40, 0x44, 0x48, 0x4C, 0x50, 0x54, 0x58, 0x5C, 0x60, 0x64, 0x68, 0x6C, 0x70, 0x74, 0x78]) ∧
  (∀ k : Fin 14, (Reg.hdrw k).offset = 0x80 + 4 * k.val) ∧
  (∀ r : Reg, r.offset % 4 = 0 ∧ Mapped r.offset) ∧
  (∀ a, a % 4 = 0 → Mapped a → ∃ r : Reg, r.offset = a) ∧ ∀ q r : Reg, q.offset = r.offset → q = r

/-- 20_memory.md R54 and R55: what an accepted read returns, register by register; it changes no register. -/
def Obligations.ReadReturnsTheRegister : Prop :=
  ∀ (s : State) (r : Reg) (rest : List Input), s.inputs = .read r.offset 4 :: rest →
    ∃ v : Word, step s = .next { s with inputs := rest, responses := .data v :: s.responses } ∧
      match r with
      | .ctrl => v.toNat = s.ctrl.toNat % 2
      | .cmd => v = 0#32
      | .status => ∀ b, v.getLsbD b = (decide (b < 4 ∨ (8 ≤ b ∧ b < 12) ∨ (16 ≤ b ∧ b < 24)) && s.status.getLsbD b)
      | .width => v = s.width
      | .height => v = s.height
      | .stride => v = s.stride
      | .pad => v = s.pad
      | .row => v = s.row
      | .rowoff => v = s.rowoff
      | .field f => v.toNat = (s.fields.raw f).toNat % 256 ^ f.wireSize
      | .hdrw k => ∀ t, t < 4 →
        v.extractLsb' (8 * t) 8 = if 4 * k.val + t < 54 then Memory.read s.hdr (4 * k.val + t) else 0#8

/-- 20_memory.md R54: what an accepted write stores in a register outside the header window; read-only registers ignore
it and it is no `BUSERR`. -/
def Obligations.WriteStoresTheRegister : Prop :=
  ∀ (s : State) (r : Reg) (v : Word) (rest : List Input), s.inputs = .write r.offset 4 v :: rest →
    match r with
    | .cmd => True
    | .hdrw _ => True
    | .ctrl => step s = .next { s with
        ctrl := BitVec.ofNat 32 (v.toNat % 2), inputs := rest, responses := .ok :: s.responses }
    | .width => step s = .next { s with width := v, inputs := rest, responses := .ok :: s.responses }
    | .height => step s = .next { s with height := v, inputs := rest, responses := .ok :: s.responses }
    | .row => step s = .next { s with row := v, inputs := rest, responses := .ok :: s.responses }
    | .status => step s = .next { s with inputs := rest, responses := .ok :: s.responses }
    | .stride => step s = .next { s with inputs := rest, responses := .ok :: s.responses }
    | .pad => step s = .next { s with inputs := rest, responses := .ok :: s.responses }
    | .rowoff => step s = .next { s with inputs := rest, responses := .ok :: s.responses }
    | .field f => ∃ F : Fields,
        step s = .next { s with fields := F, inputs := rest, responses := .ok :: s.responses } ∧
        (F.raw f).toNat = v.toNat % 256 ^ f.wireSize ∧ ∀ g, g ≠ f → F.raw g = s.fields.raw g

/-- 20_memory.md R55: a write of window word `k` stores its four bytes, lowest first, of which positions 54 and 55 do not
exist; every other byte stays. -/
def Obligations.WindowWriteStoresBytes : Prop :=
  ∀ (s : State) (k : Fin 14) (v : Word) (rest : List Input), Memory.wf s.hdr →
    s.inputs = .write (0x80 + 4 * k.val) 4 v :: rest →
    ∃ m : Memory, step s = .next { s with hdr := m, inputs := rest, responses := .ok :: s.responses } ∧
      (∀ t, t < 4 → 4 * k.val + t < 54 → Memory.read m (4 * k.val + t) = v.extractLsb' (8 * t) 8) ∧
      ∀ a, ¬(4 * k.val ≤ a ∧ a < 4 * k.val + 4 ∧ a < 54) → Memory.read m a = Memory.read s.hdr a

/-- 20_memory.md R57: no read has a side effect and reading twice returns the same value; repeating a write that is not
a command leaves the registers as one such write does. -/
def Obligations.ReadsArePureAndWritesIdempotent : Prop :=
  (∀ (s : State) (a n : Nat) (rest : List Input), s.inputs = .read a n :: .read a n :: rest →
    ∃ (t : State) (x : Response), step s = .next t ∧
      step t = .next { s with inputs := rest, responses := x :: x :: s.responses }) ∧
  ∀ (s t : State) (a n : Nat) (v : Word) (rest : List Input), Memory.wf s.hdr → a ≠ 0x04 →
    s.inputs = .write a n v :: .write a n v :: rest → step s = .next t →
    ∃ x : Response, t.responses = x :: s.responses ∧
      step t = .next { t with inputs := rest, responses := x :: x :: s.responses }

/-- 20_memory.md R60, 70_reset_and_hazards.md R204: the access after a command sees everything the command wrote. -/
def Obligations.CommandIsVisibleAtOnce : Prop :=
  ∀ (s u : State) (i : Instr) (r : Reg) (rest : List Input),
    s.inputs = .write 0x04 4 (encode i) :: .read r.offset 4 :: rest → exec i s = .next u →
    ∃ t : State, step s = .next t ∧ step t = .next { u with
      inputs := rest, responses := .data (readValue u r) :: .ok :: s.responses }

/-- 20_memory.md R59: accesses take effect one at a time, in order, each with one response; a hardware reset has none.
That the accesses behind a hardware reset stay pending, and that it gives no response, is the model's choice (log entries
2 and 8). -/
def Obligations.AccessesTakeEffectInOrder : Prop :=
  ∀ (s t : State) (i : Input) (rest : List Input), s.inputs = i :: rest → step s = .next t →
    t.inputs = rest ∧ (i ≠ .hardReset → ∃ x, t.responses = x :: s.responses) ∧
      (i = .hardReset → t.responses = s.responses)

/-- 70_reset_and_hazards.md R205: `STRIDE`, `PAD`, `ROWOFF` and `STATUS` change only when a command is run or at reset. -/
def Obligations.OnlyCommandsChangeResults : Prop :=
  ∀ s t : State, step s = .next t → s.inputs.head? ≠ some .hardReset →
    (∀ c : Word, s.inputs.head? ≠ some (.write 0x04 4 c)) →
    t.stride = s.stride ∧ t.pad = s.pad ∧ t.rowoff = s.rowoff ∧ t.status = s.status

/-- With no access pending nothing happens: the model's choice (log entry 3). -/
def Obligations.IdleStepKeepsTheState : Prop := ∀ s : State, s.inputs = [] → step s = .next s

/-- 20_memory.md R50: for every `SHC_BASE`, host address `SHC_BASE + a` is window offset `a`; that SHC does not see
other addresses is the model's choice (log entry 5). -/
def Obligations.WindowSitsAtBase : Prop :=
  ∀ (base a n : Nat) (v : Word),
    (a ≤ 0xFF → (HostRequest.read (base + a) n).toInput base = some (.read a n) ∧
      (HostRequest.write (base + a) n v).toInput base = some (.write a n v)) ∧
    (a < base ∨ base + 0xFF < a → (HostRequest.read a n).toInput base = none ∧
      (HostRequest.write a n v).toInput base = none)

/-- 30_encoding.md R76: `LOADHDR b0, …, b53` puts the bytes in the header buffer and changes no other register. -/
def Obligations.LoadhdrLoadsTheBuffer : Prop :=
  ∀ (s : State) (bytes : List Byte) (rest : List Input), Memory.wf s.hdr → bytes.length = 54 →
    s.inputs = loadhdr bytes ++ rest →
    ∃ t : State, core.run 14 s = .next t ∧ t = { s with
      hdr := t.hdr, inputs := rest, responses := List.replicate 14 .ok ++ s.responses } ∧
      ∀ j, j < 54 → some (Memory.read t.hdr j) = bytes[j]?

/-! ### Reset and invariants -/

/-- 10_state.md R37: the values after hardware reset. -/
def Obligations.ResetState : Prop :=
  State.reset.ctrl = 0 ∧ State.reset.status = 0 ∧ State.reset.width = 0 ∧ State.reset.height = 0 ∧
  State.reset.row = 0 ∧ State.reset.stride = 0 ∧ State.reset.pad = 0 ∧ State.reset.rowoff = 0 ∧
  (∀ f : Field, State.reset.fields.raw f = 0) ∧ ∀ j, Memory.read State.reset.hdr j = 0

/-- 10_state.md R37, 70_reset_and_hazards.md R200: hardware reset, whatever the state before it; SRESET reaches the same
registers and header bytes with `LASTOP` 0x08. Nothing is said here of the model's own `inputs` and `responses`. -/
def Obligations.HardwareResetClearsEverything : Prop :=
  ∀ (s : State) (rest : List Input), s.inputs = .hardReset :: rest → ∃ t : State, step s = .next t ∧ t.status = 0 ∧
    t.ctrl = 0 ∧ t.width = 0 ∧ t.height = 0 ∧ t.stride = 0 ∧ t.pad = 0 ∧ t.row = 0 ∧ t.rowoff = 0 ∧
    (∀ f : Field, t.fields.raw f = 0) ∧ (∀ j, Memory.read t.hdr j = 0) ∧
    ∃ u : State, exec .sreset s = .next u ∧
      u = { t with status := 0x00080000#32, inputs := u.inputs, responses := u.responses }

/-- The invariant holds after reset. -/
def Obligations.ResetMeetsInvariant : Prop := State.reset.Inv

/-- Every step keeps the invariant, from every state that meets it. -/
def Obligations.StepKeepsInvariant : Prop := ∀ s t : State, s.Inv → step s = .next t → t.Inv

/-- 60_exceptions.md R187: SHC has no trap, and here no stop of any kind: every step goes on. -/
def Obligations.EveryStepGoesOn : Prop := ∀ s : State, s.GoesOn

/-! ### The readings the spec takes from general knowledge -/

/-- 00_scope.md R6, 30_encoding.md R83: the magic number, the two bytes ENCODE gives it on the wire, and that DECODE
reports `INVALID_FORMAT` exactly when the first two header bytes are not these. The byte values are the spec's, which
marks them as general knowledge (log entry 9). -/
def Obligations.MagicIsTheBytesBM : Prop :=
  kMagic = 0x4D42 ∧
  (∀ s : State, Memory.wf s.hdr → DimsFit (s32 s.width) (s32 s.height) → ∃ t : State, exec .encode s = .next t ∧
    t.fields.magic = 0x00004D42#32 ∧ Memory.read t.hdr 0 = 0x42#8 ∧ Memory.read t.hdr 1 = 0x4D#8) ∧
  ∀ s : State, ∃ t : State, exec .decode s = .next t ∧
    (t.status.extractLsb' 0 4 = 1#4 ↔ ¬(Memory.read s.hdr 0 = 0x42#8 ∧ Memory.read s.hdr 1 = 0x4D#8))

/-- 00_scope.md R7: the signed reading of a register is its unsigned value below `2^31`, and from there on that value
less `2^32`. Two's complement is the spec's, which marks it as general knowledge (log entry 10). -/
def Obligations.SignedReadingIsTwosComplement : Prop :=
  ∀ v : Word, (v.toNat < 2 ^ 31 → s32 v = v.toNat) ∧ (2 ^ 31 ≤ v.toNat → s32 v = (v.toNat : Int) - 2 ^ 32)
end

