-- ==== Sys2Proof/Laws/State.lean ====
section
/-! SUPPORT. One lemma per field per update of the state, each true by rfl, so that no later proof unfolds a record
update. -/

namespace Sys2Proof.Machine

@[simp] theorem setStatus_ctrl (s : State) (v : Word) : (s.setStatus v).ctrl = s.ctrl := rfl
@[simp] theorem setStatus_status (s : State) (v : Word) : (s.setStatus v).status = v := rfl
@[simp] theorem setStatus_width (s : State) (v : Word) : (s.setStatus v).width = s.width := rfl
@[simp] theorem setStatus_height (s : State) (v : Word) : (s.setStatus v).height = s.height := rfl
@[simp] theorem setStatus_stride (s : State) (v : Word) : (s.setStatus v).stride = s.stride := rfl
@[simp] theorem setStatus_pad (s : State) (v : Word) : (s.setStatus v).pad = s.pad := rfl
@[simp] theorem setStatus_row (s : State) (v : Word) : (s.setStatus v).row = s.row := rfl
@[simp] theorem setStatus_rowoff (s : State) (v : Word) : (s.setStatus v).rowoff = s.rowoff := rfl
@[simp] theorem setStatus_fields (s : State) (v : Word) : (s.setStatus v).fields = s.fields := rfl
@[simp] theorem setStatus_hdr (s : State) (v : Word) : (s.setStatus v).hdr = s.hdr := rfl
@[simp] theorem setStatus_inputs (s : State) (v : Word) : (s.setStatus v).inputs = s.inputs := rfl
@[simp] theorem setStatus_responses (s : State) (v : Word) : (s.setStatus v).responses = s.responses := rfl

@[simp] theorem setSize_ctrl (s : State) (w h : Word) : (s.setSize w h).ctrl = s.ctrl := rfl
@[simp] theorem setSize_status (s : State) (w h : Word) : (s.setSize w h).status = s.status := rfl
@[simp] theorem setSize_width (s : State) (w h : Word) : (s.setSize w h).width = w := rfl
@[simp] theorem setSize_height (s : State) (w h : Word) : (s.setSize w h).height = h := rfl
@[simp] theorem setSize_stride (s : State) (w h : Word) : (s.setSize w h).stride = s.stride := rfl
@[simp] theorem setSize_pad (s : State) (w h : Word) : (s.setSize w h).pad = s.pad := rfl
@[simp] theorem setSize_row (s : State) (w h : Word) : (s.setSize w h).row = s.row := rfl
@[simp] theorem setSize_rowoff (s : State) (w h : Word) : (s.setSize w h).rowoff = s.rowoff := rfl
@[simp] theorem setSize_fields (s : State) (w h : Word) : (s.setSize w h).fields = s.fields := rfl
@[simp] theorem setSize_hdr (s : State) (w h : Word) : (s.setSize w h).hdr = s.hdr := rfl
@[simp] theorem setSize_inputs (s : State) (w h : Word) : (s.setSize w h).inputs = s.inputs := rfl
@[simp] theorem setSize_responses (s : State) (w h : Word) : (s.setSize w h).responses = s.responses := rfl

@[simp] theorem setGeometry_ctrl (s : State) (st p : Word) : (s.setGeometry st p).ctrl = s.ctrl := rfl
@[simp] theorem setGeometry_status (s : State) (st p : Word) : (s.setGeometry st p).status = s.status := rfl
@[simp] theorem setGeometry_width (s : State) (st p : Word) : (s.setGeometry st p).width = s.width := rfl
@[simp] theorem setGeometry_height (s : State) (st p : Word) : (s.setGeometry st p).height = s.height := rfl
@[simp] theorem setGeometry_stride (s : State) (st p : Word) : (s.setGeometry st p).stride = st := rfl
@[simp] theorem setGeometry_pad (s : State) (st p : Word) : (s.setGeometry st p).pad = p := rfl
@[simp] theorem setGeometry_row (s : State) (st p : Word) : (s.setGeometry st p).row = s.row := rfl
@[simp] theorem setGeometry_rowoff (s : State) (st p : Word) : (s.setGeometry st p).rowoff = s.rowoff := rfl
@[simp] theorem setGeometry_fields (s : State) (st p : Word) : (s.setGeometry st p).fields = s.fields := rfl
@[simp] theorem setGeometry_hdr (s : State) (st p : Word) : (s.setGeometry st p).hdr = s.hdr := rfl
@[simp] theorem setGeometry_inputs (s : State) (st p : Word) : (s.setGeometry st p).inputs = s.inputs := rfl
@[simp] theorem setGeometry_responses (s : State) (st p : Word) : (s.setGeometry st p).responses = s.responses := rfl

@[simp] theorem setRowoff_ctrl (s : State) (v : Word) : (s.setRowoff v).ctrl = s.ctrl := rfl
@[simp] theorem setRowoff_status (s : State) (v : Word) : (s.setRowoff v).status = s.status := rfl
@[simp] theorem setRowoff_width (s : State) (v : Word) : (s.setRowoff v).width = s.width := rfl
@[simp] theorem setRowoff_height (s : State) (v : Word) : (s.setRowoff v).height = s.height := rfl
@[simp] theorem setRowoff_stride (s : State) (v : Word) : (s.setRowoff v).stride = s.stride := rfl
@[simp] theorem setRowoff_pad (s : State) (v : Word) : (s.setRowoff v).pad = s.pad := rfl
@[simp] theorem setRowoff_row (s : State) (v : Word) : (s.setRowoff v).row = s.row := rfl
@[simp] theorem setRowoff_rowoff (s : State) (v : Word) : (s.setRowoff v).rowoff = v := rfl
@[simp] theorem setRowoff_fields (s : State) (v : Word) : (s.setRowoff v).fields = s.fields := rfl
@[simp] theorem setRowoff_hdr (s : State) (v : Word) : (s.setRowoff v).hdr = s.hdr := rfl
@[simp] theorem setRowoff_inputs (s : State) (v : Word) : (s.setRowoff v).inputs = s.inputs := rfl
@[simp] theorem setRowoff_responses (s : State) (v : Word) : (s.setRowoff v).responses = s.responses := rfl

@[simp] theorem setFields_ctrl (s : State) (F : Fields) : (s.setFields F).ctrl = s.ctrl := rfl
@[simp] theorem setFields_status (s : State) (F : Fields) : (s.setFields F).status = s.status := rfl
@[simp] theorem setFields_width (s : State) (F : Fields) : (s.setFields F).width = s.width := rfl
@[simp] theorem setFields_height (s : State) (F : Fields) : (s.setFields F).height = s.height := rfl
@[simp] theorem setFields_stride (s : State) (F : Fields) : (s.setFields F).stride = s.stride := rfl
@[simp] theorem setFields_pad (s : State) (F : Fields) : (s.setFields F).pad = s.pad := rfl
@[simp] theorem setFields_row (s : State) (F : Fields) : (s.setFields F).row = s.row := rfl
@[simp] theorem setFields_rowoff (s : State) (F : Fields) : (s.setFields F).rowoff = s.rowoff := rfl
@[simp] theorem setFields_fields (s : State) (F : Fields) : (s.setFields F).fields = F := rfl
@[simp] theorem setFields_hdr (s : State) (F : Fields) : (s.setFields F).hdr = s.hdr := rfl
@[simp] theorem setFields_inputs (s : State) (F : Fields) : (s.setFields F).inputs = s.inputs := rfl
@[simp] theorem setFields_responses (s : State) (F : Fields) : (s.setFields F).responses = s.responses := rfl

@[simp] theorem setHdr_ctrl (s : State) (m : Memory) : (s.setHdr m).ctrl = s.ctrl := rfl
@[simp] theorem setHdr_status (s : State) (m : Memory) : (s.setHdr m).status = s.status := rfl
@[simp] theorem setHdr_width (s : State) (m : Memory) : (s.setHdr m).width = s.width := rfl
@[simp] theorem setHdr_height (s : State) (m : Memory) : (s.setHdr m).height = s.height := rfl
@[simp] theorem setHdr_stride (s : State) (m : Memory) : (s.setHdr m).stride = s.stride := rfl
@[simp] theorem setHdr_pad (s : State) (m : Memory) : (s.setHdr m).pad = s.pad := rfl
@[simp] theorem setHdr_row (s : State) (m : Memory) : (s.setHdr m).row = s.row := rfl
@[simp] theorem setHdr_rowoff (s : State) (m : Memory) : (s.setHdr m).rowoff = s.rowoff := rfl
@[simp] theorem setHdr_fields (s : State) (m : Memory) : (s.setHdr m).fields = s.fields := rfl
@[simp] theorem setHdr_hdr (s : State) (m : Memory) : (s.setHdr m).hdr = m := rfl
@[simp] theorem setHdr_inputs (s : State) (m : Memory) : (s.setHdr m).inputs = s.inputs := rfl
@[simp] theorem setHdr_responses (s : State) (m : Memory) : (s.setHdr m).responses = s.responses := rfl

@[simp] theorem setInputs_ctrl (s : State) (l : List Input) : (s.setInputs l).ctrl = s.ctrl := rfl
@[simp] theorem setInputs_status (s : State) (l : List Input) : (s.setInputs l).status = s.status := rfl
@[simp] theorem setInputs_width (s : State) (l : List Input) : (s.setInputs l).width = s.width := rfl
@[simp] theorem setInputs_height (s : State) (l : List Input) : (s.setInputs l).height = s.height := rfl
@[simp] theorem setInputs_stride (s : State) (l : List Input) : (s.setInputs l).stride = s.stride := rfl
@[simp] theorem setInputs_pad (s : State) (l : List Input) : (s.setInputs l).pad = s.pad := rfl
@[simp] theorem setInputs_row (s : State) (l : List Input) : (s.setInputs l).row = s.row := rfl
@[simp] theorem setInputs_rowoff (s : State) (l : List Input) : (s.setInputs l).rowoff = s.rowoff := rfl
@[simp] theorem setInputs_fields (s : State) (l : List Input) : (s.setInputs l).fields = s.fields := rfl
@[simp] theorem setInputs_hdr (s : State) (l : List Input) : (s.setInputs l).hdr = s.hdr := rfl
@[simp] theorem setInputs_inputs (s : State) (l : List Input) : (s.setInputs l).inputs = l := rfl
@[simp] theorem setInputs_responses (s : State) (l : List Input) : (s.setInputs l).responses = s.responses := rfl

@[simp] theorem respond_ctrl (s : State) (r : Response) : (s.respond r).ctrl = s.ctrl := rfl
@[simp] theorem respond_status (s : State) (r : Response) : (s.respond r).status = s.status := rfl
@[simp] theorem respond_width (s : State) (r : Response) : (s.respond r).width = s.width := rfl
@[simp] theorem respond_height (s : State) (r : Response) : (s.respond r).height = s.height := rfl
@[simp] theorem respond_stride (s : State) (r : Response) : (s.respond r).stride = s.stride := rfl
@[simp] theorem respond_pad (s : State) (r : Response) : (s.respond r).pad = s.pad := rfl
@[simp] theorem respond_row (s : State) (r : Response) : (s.respond r).row = s.row := rfl
@[simp] theorem respond_rowoff (s : State) (r : Response) : (s.respond r).rowoff = s.rowoff := rfl
@[simp] theorem respond_fields (s : State) (r : Response) : (s.respond r).fields = s.fields := rfl
@[simp] theorem respond_hdr (s : State) (r : Response) : (s.respond r).hdr = s.hdr := rfl
@[simp] theorem respond_inputs (s : State) (r : Response) : (s.respond r).inputs = s.inputs := rfl
@[simp] theorem respond_responses (s : State) (r : Response) : (s.respond r).responses = r :: s.responses := rfl

@[simp] theorem resetRegisters_ctrl (s : State) : s.resetRegisters.ctrl = 0 := rfl
@[simp] theorem resetRegisters_status (s : State) : s.resetRegisters.status = 0 := rfl
@[simp] theorem resetRegisters_width (s : State) : s.resetRegisters.width = 0 := rfl
@[simp] theorem resetRegisters_height (s : State) : s.resetRegisters.height = 0 := rfl
@[simp] theorem resetRegisters_stride (s : State) : s.resetRegisters.stride = 0 := rfl
@[simp] theorem resetRegisters_pad (s : State) : s.resetRegisters.pad = 0 := rfl
@[simp] theorem resetRegisters_row (s : State) : s.resetRegisters.row = 0 := rfl
@[simp] theorem resetRegisters_rowoff (s : State) : s.resetRegisters.rowoff = 0 := rfl
@[simp] theorem resetRegisters_fields (s : State) : s.resetRegisters.fields = Fields.reset := rfl
@[simp] theorem resetRegisters_hdr (s : State) : s.resetRegisters.hdr = [] := rfl
@[simp] theorem resetRegisters_inputs (s : State) : s.resetRegisters.inputs = s.inputs := rfl
@[simp] theorem resetRegisters_responses (s : State) : s.resetRegisters.responses = s.responses := rfl

/-! The order of independent updates does not matter, and the last of two equal ones counts. -/

@[simp] theorem setStatus_setStatus (s : State) (u v : Word) : (s.setStatus u).setStatus v = s.setStatus v := rfl

@[simp] theorem setInputs_setInputs (s : State) (k l : List Input) : (s.setInputs k).setInputs l = s.setInputs l := rfl

theorem raiseError_eq (o : Byte) (e : Failure) (s : State) :
    raiseError o e s = s.setStatus (statusWord e.code e.check o) := rfl

theorem succeed_eq (o : Byte) (s : State) : succeed o s = s.setStatus (statusWord .ok .none o) := rfl

@[simp] theorem xchk_setFields (s : State) (F : Fields) : (s.setFields F).xchk = s.xchk := rfl

@[simp] theorem xchk_setSize (s : State) (w h : Word) : (s.setSize w h).xchk = s.xchk := rfl

@[simp] theorem xchk_setGeometry (s : State) (st p : Word) : (s.setGeometry st p).xchk = s.xchk := rfl

@[simp] theorem xchk_setStatus (s : State) (v : Word) : (s.setStatus v).xchk = s.xchk := rfl

end Sys2Proof.Machine
end

