-- ==== Sys2Proof/Laws/Numbers.lean ====
section
/-! SUPPORT. The numeric readings of a register (00_scope.md R7) and the stride function (40_stride.md R100 to R104),
said once as arithmetic. -/

namespace Sys2Proof.Machine

@[simp] theorem bits32_u32 (v : Word) : bits32 (u32 v) = v := by simp [bits32, u32]

theorem u32_bits32 {n : Nat} (h : n ≤ Config.maxWord) : u32 (bits32 n) = n := by
  simp only [Config.maxWord] at h
  simp only [u32, bits32, BitVec.toNat_ofNat]
  omega

theorem u32_lt (v : Word) : u32 v < 4294967296 := v.isLt

/-- `s32(v) = u32(v) - 2^32 * v[31]` as arithmetic on the unsigned reading. -/
theorem s32_eq (v : Word) : s32 v = (u32 v : Int) - 4294967296 * ((u32 v / 2147483648 : Nat) : Int) := by
  have h := u32_lt v
  have e : (v.extractLsb' 31 1).toNat = u32 v / 2147483648 := by
    simp only [BitVec.extractLsb'_toNat, Nat.shiftRight_eq_div_pow, u32] at h ⊢
    omega
  rw [s32, e]

theorem s32_nonneg_iff (v : Word) : 0 ≤ s32 v ↔ u32 v < 2147483648 := by
  have h := u32_lt v
  rw [s32_eq]
  omega

theorem s32_of_nonneg {v : Word} (h : 0 ≤ s32 v) : s32 v = u32 v := by
  have h' := (s32_nonneg_iff v).mp h
  rw [s32_eq]
  omega

theorem toNat_s32 {v : Word} (h : 0 ≤ s32 v) : (s32 v).toNat = u32 v := by rw [s32_of_nonneg h]; rfl

theorem s32_lt (v : Word) : s32 v < 2147483648 := by
  have h := u32_lt v
  rw [s32_eq]
  omega

/-- The closed form of `stride` (40_stride.md R101). -/
theorem stride_eq (w : Nat) : stride w = 3 * w + w % 4 := by
  simp only [stride, ceilDiv]
  omega

theorem pad_eq (w : Nat) : pad w = w % 4 := by
  rw [pad, stride_eq]
  omega

theorem widthCheck_eq_none_iff (w : Int) : widthCheck w = none ↔ 0 ≤ w ∧ stride w.toNat ≤ Config.maxWord := by
  unfold widthCheck
  split_ifs <;> simp <;> omega

theorem dimsCheck_eq_none_iff (w h : Int) : dimsCheck w h = none ↔
    0 ≤ w ∧ 0 ≤ h ∧ stride w.toNat ≤ Config.maxWord ∧ fileSize w.toNat h.toNat ≤ Config.maxWord := by
  unfold dimsCheck
  split_ifs <;> simp <;> omega

theorem u32_low16 (v : Word) : u32 (low16 v) = u32 v % 65536 := by
  simp [u32, low16, BitVec.extractLsb'_toNat]
  omega

theorem u32_low1 (v : Word) : u32 (low1 v) = u32 v % 2 := by
  simp [u32, low1, BitVec.extractLsb'_toNat]
  omega

/-- A register's value is its unsigned reading. -/
theorem u32_inj {v w : Word} : u32 v = u32 w ↔ v = w := BitVec.toNat_inj

@[simp] theorem low16_low16 (v : Word) : low16 (low16 v) = low16 v := by
  rw [← u32_inj]
  simp only [u32_low16]
  omega

@[simp] theorem low1_low1 (v : Word) : low1 (low1 v) = low1 v := by
  rw [← u32_inj]
  simp only [u32_low1]
  omega

@[simp] theorem existing_existing (f : Field) (v : Word) : f.existing (f.existing v) = f.existing v := by
  unfold Field.existing
  split_ifs <;> simp

/-- A field register's bits, as arithmetic: it holds what its wire bytes can carry (10_state.md R31). -/
theorem u32_existing (f : Field) (v : Word) : u32 (f.existing v) = u32 v % 256 ^ f.wireSize := by
  have h := u32_lt v
  cases f <;> simp [Field.existing, Field.wireSize, u32_low16] <;> omega

/-- Reading a field register after writing one (10_state.md R31). -/
theorem read_write (F : Fields) (f g : Field) (v : Word) :
    (F.write f v).read g = if f = g then f.existing v else F.read g := by
  cases f <;> cases g <;> simp [Fields.write, Fields.read, Fields.raw]

@[simp] theorem raw_ofFun (g : Field → Word) (f : Field) : (Fields.ofFun g).raw f = f.existing (g f) := by cases f <;> rfl

@[simp] theorem read_ofFun (g : Field → Word) (f : Field) : (Fields.ofFun g).read f = f.existing (g f) := by
  simp [Fields.read]

/-- The field registers are their 15 raw values. -/
theorem fields_ext {F G : Fields} (h : ∀ f, F.raw f = G.raw f) : F = G := by
  cases F; cases G
  simp only [Fields.mk.injEq]
  exact ⟨h .magic, h .fsize, h .rsvd, h .offbits, h .isize, h .width, h .height, h .planes, h .bpp, h .comp, h .imgsize,
    h .xres, h .yres, h .clrused, h .clrimp⟩

end Sys2Proof.Machine
end

