-- ==== Sys2Proof/Laws/Flags.lean ====
section
/-! SUPPORT. The parts of a `STATUS` word (10_state.md R29, 60_exceptions.md R180). -/

namespace Sys2Proof.Machine

theorem Code.num_lt (c : Code) : c.num < 16 := by cases c <;> decide

theorem Check.num_lt (k : Check) : k.num < 16 := by cases k <;> decide

theorem Code.num_inj {c d : Code} (h : c.num = d.num) : c = d := by
  revert h
  cases c <;> cases d <;> simp [Code.num]

theorem Check.num_inj {c d : Check} (h : c.num = d.num) : c = d := by
  revert h
  cases c <;> cases d <;> simp [Check.num]

theorem toNat_statusWord (c : Code) (k : Check) (o : Byte) :
    (statusWord c k o).toNat = 65536 * o.toNat + 256 * k.num + c.num := by
  have h1 := c.num_lt
  have h2 := k.num_lt
  have h3 := o.isLt
  rw [statusWord, BitVec.toNat_ofNat]
  omega

theorem statusErr_statusWord (c : Code) (k : Check) (o : Byte) : (statusErr (statusWord c k o)).toNat = c.num := by
  have h1 := c.num_lt
  rw [statusErr, BitVec.extractLsb'_toNat, toNat_statusWord, Nat.shiftRight_eq_div_pow]
  omega

theorem statusChk_statusWord (c : Code) (k : Check) (o : Byte) : (statusChk (statusWord c k o)).toNat = k.num := by
  have h1 := c.num_lt
  have h2 := k.num_lt
  rw [statusChk, BitVec.extractLsb'_toNat, toNat_statusWord, Nat.shiftRight_eq_div_pow]
  omega

theorem statusLastop_statusWord (c : Code) (k : Check) (o : Byte) : statusLastop (statusWord c k o) = o := by
  have h1 := c.num_lt
  have h2 := k.num_lt
  have h3 := o.isLt
  apply BitVec.eq_of_toNat_eq
  rw [statusLastop, BitVec.extractLsb'_toNat, toNat_statusWord, Nat.shiftRight_eq_div_pow]
  omega

/-- A bit of a `STATUS` word, as arithmetic. -/
theorem getLsbD_statusWord (c : Code) (k : Check) (o : Byte) (i : Nat) :
    (statusWord c k o).getLsbD i = decide ((65536 * o.toNat + 256 * k.num + c.num) / 2 ^ i % 2 = 1) := by
  rw [← BitVec.testBit_toNat, toNat_statusWord, Nat.testBit_eq_decide_div_mod_eq]

/-- The reserved bits of every `STATUS` word a command writes are zero (10_state.md R29). -/
theorem statusExisting_statusWord (c : Code) (k : Check) (o : Byte) :
    statusExisting (statusWord c k o) = statusWord c k o := by
  have h1 := c.num_lt
  have h2 := k.num_lt
  have h3 := o.isLt
  apply BitVec.eq_of_getLsbD_eq
  intro i hi
  rw [statusExisting, BitVec.getLsbD_and, getLsbD_statusWord]
  generalize c.num = n at *
  generalize k.num = m at *
  generalize o.toNat = l at *
  interval_cases i <;> first
    | rw [show (0x00FF0F0F : Word).getLsbD _ = true from rfl, Bool.and_true]
    | (rw [show (0x00FF0F0F : Word).getLsbD _ = false from rfl, Bool.and_false, eq_comm, decide_eq_false_iff_not]
       omega)

end Sys2Proof.Machine
end

