-- ==== Sys2Proof/Laws/Memory.lean ====
section
/-! SUPPORT. The header buffer's laws: a read after a write, the canonical form kept, equal readings are equal lists, and
the little-endian loads and stores over them (20_memory.md R55, 30_encoding.md R82). -/

namespace Sys2Proof.Machine

@[simp] theorem Memory.read_nil (a : Nat) : Memory.read [] a = Memory.unlisted := rfl

/-- A position below every listed one is not listed. -/
theorem Memory.read_of_lt {m : Memory} {a : Nat} (h : ∀ c ∈ m, a < c.1) : Memory.read m a = Memory.unlisted := by
  induction m with
  | nil => rfl
  | cons c rest ih =>
    have h1 := h c (by simp)
    rw [Memory.read, if_neg (by omega), ih (fun d hd => h d (by simp [hd]))]

theorem Memory.wf_nil : Memory.wf [] := by simp [Memory.wf]

theorem Memory.wf_cons {c : Host.Cell} {m : Memory} : Memory.wf (c :: m) ↔
    (∀ d ∈ m, c.1 < d.1) ∧ c.1 < Config.hdrBytes ∧ c.2 ≠ Memory.unlisted ∧ Memory.wf m := by
  simp only [Memory.wf, List.pairwise_cons, List.forall_mem_cons]
  tauto

/-- What a canonical list holds in front of a canonical rest that lies above it. -/
theorem Memory.read_cons {a : Nat} {b : Byte} {rest : Memory} (h : ∀ d ∈ rest, a < d.1) (j : Nat) :
    Memory.read (Memory.cons a b rest) j = if a = j then b else Memory.read rest j := by
  unfold Memory.cons
  by_cases hb : b = Memory.unlisted
  · by_cases ha : a = j
    · subst ha
      simp [hb, Memory.read_of_lt h]
    · simp [hb, ha]
  · simp [hb, Memory.read]

theorem Memory.wf_cons_of {a : Nat} {b : Byte} {rest : Memory} (h : ∀ d ∈ rest, a < d.1) (ha : a < Config.hdrBytes)
    (hr : Memory.wf rest) : Memory.wf (Memory.cons a b rest) := by
  unfold Memory.cons
  split_ifs with hb
  · exact hr
  · exact Memory.wf_cons.mpr ⟨h, ha, hb, hr⟩

theorem Memory.mem_cons {a : Nat} {b : Byte} {rest : Memory} {d : Host.Cell} (h : d ∈ Memory.cons a b rest) :
    d = (a, b) ∨ d ∈ rest := by
  unfold Memory.cons at h
  split_ifs at h with hb
  · exact .inr h
  · simpa using h

theorem Memory.mem_write {m : Memory} {a : Nat} {b : Byte} {d : Host.Cell} (h : d ∈ Memory.write m a b) :
    d = (a, b) ∨ d ∈ m := by
  induction m with
  | nil => exact Memory.mem_cons h
  | cons c rest ih =>
    rw [Memory.write] at h
    split_ifs at h with h1 h2
    · rcases List.mem_cons.mp h with rfl | h
      · simp
      · rcases ih h with h | h <;> simp [h]
    · rcases Memory.mem_cons h with h | h <;> simp [h]
    · exact Memory.mem_cons h

/-- A read after a write: the written position gives the value, every other keeps its own. -/
theorem Memory.read_write {m : Memory} (hm : m.Pairwise (fun x y => x.1 < y.1)) (a j : Nat) (b : Byte) :
    Memory.read (Memory.write m a b) j = if a = j then b else Memory.read m j := by
  induction m with
  | nil => exact Memory.read_cons (by simp) j
  | cons c rest ih =>
    have hc := (List.pairwise_cons.mp hm).1
    have hr := (List.pairwise_cons.mp hm).2
    obtain ⟨k, x⟩ := c
    by_cases h1 : k < a
    · simp only [Memory.write, if_pos h1, Memory.read, ih hr]
      split_ifs <;> first | rfl | omega
    · by_cases h2 : k = a
      · rw [Memory.write, if_neg h1, if_pos h2, Memory.read_cons (fun d hd => h2 ▸ hc d hd)]
        simp only [Memory.read]
        split_ifs <;> first | rfl | omega
      · rw [Memory.write, if_neg h1, if_neg h2, Memory.read_cons]
        intro d hd
        rcases List.mem_cons.mp hd with rfl | hd
        · exact lt_of_le_of_ne (not_lt.mp h1) (Ne.symm h2)
        · exact lt_of_le_of_lt (not_lt.mp h1) (hc d hd)

/-- A write inside the buffer keeps the canonical form. -/
theorem Memory.wf_write {m : Memory} (hm : Memory.wf m) {a : Nat} (ha : a < Config.hdrBytes) (b : Byte) :
    Memory.wf (Memory.write m a b) := by
  induction m with
  | nil => exact Memory.wf_cons_of (by simp) ha Memory.wf_nil
  | cons c rest ih =>
    obtain ⟨hc, hlt, hne, hr⟩ := Memory.wf_cons.mp hm
    rw [Memory.write]
    split_ifs with h1 h2
    · refine Memory.wf_cons.mpr ⟨?_, hlt, hne, ih hr⟩
      intro d hd
      rcases Memory.mem_write hd with rfl | hd
      · exact h1
      · exact hc d hd
    · exact Memory.wf_cons_of (fun d hd => h2 ▸ hc d hd) ha hr
    · refine Memory.wf_cons_of ?_ ha hm
      intro d hd
      rcases List.mem_cons.mp hd with rfl | hd
      · omega
      · have := hc d hd
        omega

/-- A listed position reads as no unlisted one does. -/
theorem Memory.read_head {c : Host.Cell} {m : Memory} : Memory.read (c :: m) c.1 = c.2 := by simp [Memory.read]

/-- Two canonical lists that read alike are equal. -/
theorem Memory.ext {m n : Memory} (hm : Memory.wf m) (hn : Memory.wf n) (h : ∀ j, Memory.read m j = Memory.read n j) :
    m = n := by
  induction m generalizing n with
  | nil =>
    cases n with
    | nil => rfl
    | cons d n =>
      obtain ⟨-, -, hne, -⟩ := Memory.wf_cons.mp hn
      exact absurd (Memory.read_head.symm.trans (h d.1).symm) hne
  | cons c m ih =>
    obtain ⟨hc, -, hcne, hm'⟩ := Memory.wf_cons.mp hm
    cases n with
    | nil => exact absurd (Memory.read_head.symm.trans (h c.1)) hcne
    | cons d n =>
      obtain ⟨hd, -, hdne, hn'⟩ := Memory.wf_cons.mp hn
      have key : c.1 = d.1 := by
        rcases lt_trichotomy c.1 d.1 with hlt | heq | hgt
        · refine absurd (Memory.read_head.symm.trans ((h c.1).trans (Memory.read_of_lt ?_))) hcne
          intro e he
          rcases List.mem_cons.mp he with rfl | he
          · exact hlt
          · exact hlt.trans (hd e he)
        · exact heq
        · refine absurd (Memory.read_head.symm.trans ((h d.1).symm.trans (Memory.read_of_lt ?_))) hdne
          intro e he
          rcases List.mem_cons.mp he with rfl | he
          · exact hgt
          · exact hgt.trans (hc e he)
      have hval : c.2 = d.2 := by
        have := h c.1
        rw [Memory.read_head, key, Memory.read_head] at this
        exact this
      have htail : m = n := by
        refine ih hm' hn' (fun j => ?_)
        have hj := h j
        simp only [Memory.read] at hj
        by_cases hcj : c.1 = j
        · rw [Memory.read_of_lt (fun e he => hcj ▸ hc e he), Memory.read_of_lt (fun e he => hcj ▸ key ▸ hd e he)]
        · rwa [if_neg hcj, if_neg (key ▸ hcj)] at hj
      obtain ⟨c1, c2⟩ := c
      obtain ⟨d1, d2⟩ := d
      simp_all

theorem wf_setHdrByte {m : Memory} (hm : Memory.wf m) (j : Nat) (b : Byte) : Memory.wf (setHdrByte m j b) := by
  unfold setHdrByte
  split_ifs with h
  · exact Memory.wf_write hm h b
  · exact hm

theorem wf_writeLE {m : Memory} (hm : Memory.wf m) (o n v : Nat) : Memory.wf (writeLE m o n v) := by
  induction n generalizing m o v with
  | zero => exact hm
  | succ n ih => exact ih (wf_setHdrByte hm o _) _ _

theorem wf_setHdrWord {m : Memory} (hm : Memory.wf m) (k : Nat) (v : Word) : Memory.wf (setHdrWord m k v) :=
  wf_writeLE hm _ _ _

theorem wf_packFields (F : Fields) {m : Memory} (hm : Memory.wf m) : Memory.wf (packFields F m) := by
  unfold packFields
  induction Field.all generalizing m with
  | nil => exact hm
  | cons f l ih => exact ih (wf_writeLE hm _ _ _)

/-- A canonical list is determined by its 54 bytes. -/
theorem hdr_ext {m n : Memory} (hm : Memory.wf m) (hn : Memory.wf n)
    (h : ∀ j, j < Config.hdrBytes → hdrByte m j = hdrByte n j) : m = n := by
  refine Memory.ext hm hn (fun j => ?_)
  by_cases hj : j < Config.hdrBytes
  · simpa [hdrByte, hj] using h j hj
  · have outside : ∀ {l : Memory}, Memory.wf l → Memory.read l j = Memory.unlisted := by
      intro l hl
      induction l with
      | nil => rfl
      | cons c l ih =>
        obtain ⟨-, hlt, -, hl'⟩ := Memory.wf_cons.mp hl
        rw [Memory.read, if_neg (by omega), ih hl']
    rw [outside hm, outside hn]

theorem hdrByte_setHdrByte {m : Memory} (hm : m.Pairwise (fun x y => x.1 < y.1)) (o j : Nat) (b : Byte) :
    hdrByte (setHdrByte m o b) j = if o = j ∧ j < Config.hdrBytes then b else hdrByte m j := by
  unfold hdrByte setHdrByte
  by_cases ho : o < Config.hdrBytes <;> by_cases hj : j < Config.hdrBytes <;>
    simp [ho, hj, Memory.read_write hm]
  omega

/-- The bytes after a little-endian store (30_encoding.md R82): byte `t` of the value at `o + t`, all others kept. -/
theorem hdrByte_writeLE {m : Memory} (hm : Memory.wf m) (o n v j : Nat) :
    hdrByte (writeLE m o n v) j =
      if o ≤ j ∧ j < o + n ∧ j < Config.hdrBytes then BitVec.ofNat 8 (v / 256 ^ (j - o)) else hdrByte m j := by
  induction n generalizing m o v with
  | zero => rw [writeLE, if_neg (by omega)]
  | succ n ih =>
    rw [writeLE, ih (wf_setHdrByte hm o _), hdrByte_setHdrByte hm.1]
    by_cases hj : j = o
    · subst hj
      by_cases hb : j < Config.hdrBytes <;> simp [hb]
    · by_cases h1 : o + 1 ≤ j ∧ j < o + 1 + n ∧ j < Config.hdrBytes
      · have e : j - o = (j - (o + 1)) + 1 := by omega
        rw [if_pos h1, if_pos (by omega), e, pow_succ', Nat.div_div_eq_div_mul]
      · rw [if_neg h1, if_neg (by omega), if_neg (by omega)]

theorem readLE_lt (m : Memory) (o n : Nat) : readLE m o n < 256 ^ n := by
  induction n generalizing o with
  | zero => simp [readLE]
  | succ n ih =>
    have h1 := (hdrByte m o).isLt
    have h2 := ih (o + 1)
    rw [readLE, pow_succ']
    omega

/-- Loads agree where their bytes do. -/
theorem readLE_congr {m l : Memory} {o n : Nat} (h : ∀ j, o ≤ j → j < o + n → hdrByte m j = hdrByte l j) :
    readLE m o n = readLE l o n := by
  induction n generalizing o with
  | zero => rfl
  | succ n ih =>
    rw [readLE, readLE, h o (by omega) (by omega), ih (fun j h1 h2 => h j (by omega) (by omega))]

/-- A load of bytes that hold a little-endian value gives the value (30_encoding.md R82). -/
theorem readLE_of_bytes {m : Memory} {o n v : Nat} (h : ∀ t, t < n → hdrByte m (o + t) = BitVec.ofNat 8 (v / 256 ^ t)) :
    readLE m o n = v % 256 ^ n := by
  induction n generalizing o v with
  | zero => simp [readLE, Nat.mod_one]
  | succ n ih =>
    have h0 := h 0 (by omega)
    have ih' := @ih (o + 1) (v / 256) (fun t ht => by
      have := h (t + 1) (by omega)
      rw [show o + (t + 1) = o + 1 + t by omega] at this
      rw [this, pow_succ', Nat.div_div_eq_div_mul])
    rw [readLE, ih']
    simp only [Nat.add_zero, pow_zero, Nat.div_one] at h0
    rw [h0, pow_succ', Nat.mod_mul]
    simp

/-- The byte at `o + t` of a little-endian load. -/
theorem byte_of_readLE {m : Memory} {o n t : Nat} (ht : t < n) :
    BitVec.ofNat 8 (readLE m o n / 256 ^ t) = hdrByte m (o + t) := by
  induction n generalizing o t with
  | zero => omega
  | succ n ih =>
    rw [readLE]
    have hb := (hdrByte m o).isLt
    cases t with
    | zero =>
      apply BitVec.eq_of_toNat_eq
      simp
      omega
    | succ t =>
      have e : ((hdrByte m o).toNat + 256 * readLE m (o + 1) n) / 256 ^ (t + 1) = readLE m (o + 1) n / 256 ^ t := by
        rw [pow_succ', ← Nat.div_div_eq_div_mul]
        congr 1
        omega
      rw [e, ih (by omega), show o + 1 + t = o + (t + 1) by omega]

end Sys2Proof.Machine
end

