-- ==== Sys2Proof/Laws/Header.lean ====
section
/-! SUPPORT. What packing and unpacking do to each byte and each field (41_header_serialize.md R122,
42_header_deserialize.md R140), and the window's words (20_memory.md R55). -/

namespace Sys2Proof.Machine

/-- The wire bytes of a field. -/
abbrev Field.covers (f : Field) (j : Nat) : Prop := f.wireOffset ≤ j ∧ j < f.wireOffset + f.wireSize

/-- Each field ends before the next one begins (30_encoding.md R81). -/
theorem all_pairwise : Field.all.Pairwise (fun f g => f.wireOffset + f.wireSize ≤ g.wireOffset) := by decide

theorem mem_all (f : Field) : f ∈ Field.all := by cases f <;> decide

theorem wire_end (f : Field) : f.wireOffset + f.wireSize ≤ Config.hdrBytes := by cases f <;> decide

/-- Every header byte belongs to a field (30_encoding.md R81). -/
theorem exists_covers {j : Nat} (h : j < Config.hdrBytes) : ∃ f : Field, f.covers j := by
  have all : ∀ j : Fin 54, ∃ f ∈ Field.all, Field.covers f j.val := by decide
  obtain ⟨f, -, hf⟩ := all ⟨j, h⟩
  exact ⟨f, hf⟩

theorem hdrByte_foldl_of_not_covers (F : Fields) (l : List Field) {m : Memory} (hm : Memory.wf m) {j : Nat}
    (hj : ∀ f ∈ l, ¬f.covers j) :
    hdrByte (l.foldl (fun m f => writeLE m f.wireOffset f.wireSize (u32 (F.read f))) m) j = hdrByte m j := by
  induction l generalizing m with
  | nil => rfl
  | cons f l ih =>
    have hf := hj f (by simp)
    rw [List.foldl_cons, ih (wf_writeLE hm _ _ _) (fun g hg => hj g (by simp [hg])), hdrByte_writeLE hm]
    exact if_neg (fun h => hf ⟨h.1, h.2.1⟩)

theorem hdrByte_foldl_of_covers (F : Fields) (l : List Field)
    (hl : l.Pairwise (fun f g => f.wireOffset + f.wireSize ≤ g.wireOffset)) {m : Memory} (hm : Memory.wf m) {f : Field}
    (hf : f ∈ l) {j : Nat} (hj : f.covers j) :
    hdrByte (l.foldl (fun m f => writeLE m f.wireOffset f.wireSize (u32 (F.read f))) m) j =
      BitVec.ofNat 8 (u32 (F.read f) / 256 ^ (j - f.wireOffset)) := by
  induction l generalizing m with
  | nil => simp at hf
  | cons g l ih =>
    obtain ⟨hg, hl'⟩ := List.pairwise_cons.mp hl
    rw [List.foldl_cons]
    rcases List.mem_cons.mp hf with rfl | hf
    · rw [hdrByte_foldl_of_not_covers F l (wf_writeLE hm _ _ _) (fun g' hg' hc => ?_), hdrByte_writeLE hm, if_pos]
      · have h1 := wire_end f
        exact ⟨hj.1, hj.2, by omega⟩
      · have h1 := hg g' hg'
        omega
    · exact ih hl' (wf_writeLE hm _ _ _) hf

/-- The bytes PACK writes: byte `t` of each field at its offset (41_header_serialize.md R122). -/
theorem hdrByte_packFields (F : Fields) {m : Memory} (hm : Memory.wf m) {f : Field} {t : Nat} (ht : t < f.wireSize) :
    hdrByte (packFields F m) (f.wireOffset + t) = BitVec.ofNat 8 (u32 (F.read f) / 256 ^ t) := by
  have h := hdrByte_foldl_of_covers F Field.all all_pairwise hm (mem_all f) (j := f.wireOffset + t)
    ⟨by omega, by omega⟩
  rw [packFields, h]
  congr 2
  simp

/-- The number UNPACK gives each field (42_header_deserialize.md R140). -/
theorem u32_raw_unpackFields (m : Memory) (f : Field) :
    u32 ((unpackFields m).raw f) = readLE m f.wireOffset f.wireSize := by
  have h := readLE_lt m f.wireOffset f.wireSize
  have hs : f.wireSize = 2 ∨ f.wireSize = 4 := by cases f <;> simp [Field.wireSize]
  have hw : readLE m f.wireOffset f.wireSize ≤ Config.maxWord := by
    simp only [Config.maxWord]
    rcases hs with hs | hs <;> rw [hs] at h ⊢ <;> omega
  rw [unpackFields, raw_ofFun, u32_existing, u32_bits32 hw, Nat.mod_eq_of_lt h]

/-- Every field UNPACK writes holds only bits that exist (10_state.md R31). -/
theorem read_unpackFields (m : Memory) (f : Field) : (unpackFields m).read f = (unpackFields m).raw f := by
  simp [Fields.read, unpackFields]

/-- The number in a word of the window (20_memory.md R55). -/
theorem u32_hdrWord (m : Memory) (k : Nat) : u32 (hdrWord m k) = readLE m (4 * k) 4 := by
  have h := readLE_lt m (4 * k) 4
  exact u32_bits32 (by simp only [Config.maxWord]; omega)

/-- The bytes after a write of a window word (20_memory.md R55). -/
theorem hdrByte_setHdrWord {m : Memory} (hm : Memory.wf m) (k : Nat) (v : Word) (j : Nat) :
    hdrByte (setHdrWord m k v) j =
      if 4 * k ≤ j ∧ j < 4 * k + 4 ∧ j < Config.hdrBytes then BitVec.ofNat 8 (u32 v / 256 ^ (j - 4 * k))
      else hdrByte m j := hdrByte_writeLE hm _ _ _ _

end Sys2Proof.Machine
end

