-- ==== Sys2Proof/Laws/Exec.lean ====
section
/-! SUPPORT. What each shared operation of a step can do, said once: the end of a command, each command's body, the
accesses, and the inversion of one step. -/

namespace Sys2Proof.Machine

/-- The end of a command is one of two next states. -/
theorem complete_cases {o : Byte} {f : State} {b : Except Failure State} {t : State}
    (h : complete o f b = .next t) :
    (∃ u, b = .ok u ∧ t = succeed o u) ∨ (∃ e, b = .error e ∧ t = raiseError o e f) := by
  cases b with
  | ok u => exact .inl ⟨u, rfl, by simpa [complete] using h.symm⟩
  | error e => exact .inr ⟨e, rfl, by simpa [complete] using h.symm⟩

theorem complete_next (o : Byte) (f : State) (b : Except Failure State) : ∃ t, complete o f b = .next t := by
  cases b <;> exact ⟨_, rfl⟩

/-! Each command as the end of its body, so that no proof unfolds `exec`. -/

theorem exec_nop (s : State) : exec .nop s = complete (Instr.opc .nop) s (.ok s) := rfl

theorem exec_stride (s : State) : exec .stride s = complete (Instr.opc .stride) s (strideBody s) := rfl

theorem exec_build (s : State) : exec .build s = complete (Instr.opc .build) s (buildBody s) := rfl

theorem exec_pack (s : State) : exec .pack s = complete (Instr.opc .pack) s (.ok (packBody s)) := rfl

theorem exec_unpack (s : State) : exec .unpack s = complete (Instr.opc .unpack) s (.ok (unpackBody s)) := rfl

theorem exec_validate (s : State) : exec .validate s = complete (Instr.opc .validate) s (validateBody s) := rfl

theorem exec_encode (s : State) : exec .encode s = complete (Instr.opc .encode) s (encodeBody s) := rfl

theorem exec_decode (s : State) : exec .decode s = complete (Instr.opc .decode) (unpackBody s) (validateBody (unpackBody s)) := rfl

theorem exec_sreset (s : State) : exec .sreset s = complete (Instr.opc .sreset) s (.ok s.resetRegisters) := rfl

theorem exec_rowoff (s : State) : exec .rowoff s = complete (Instr.opc .rowoff) s (rowoffBody s) := rfl

/-- Every command goes on: it ends in a next state (60_exceptions.md R187). -/
theorem exec_next (i : Instr) (s : State) : ∃ t, exec i s = .next t := by
  cases i with
  | nop => exact exec_nop s ▸ complete_next _ _ _
  | stride => exact exec_stride s ▸ complete_next _ _ _
  | build => exact exec_build s ▸ complete_next _ _ _
  | pack => exact exec_pack s ▸ complete_next _ _ _
  | unpack => exact exec_unpack s ▸ complete_next _ _ _
  | validate => exact exec_validate s ▸ complete_next _ _ _
  | encode => exact exec_encode s ▸ complete_next _ _ _
  | decode => exact exec_decode s ▸ complete_next _ _ _
  | sreset => exact exec_sreset s ▸ complete_next _ _ _
  | rowoff => exact exec_rowoff s ▸ complete_next _ _ _

/-- What the body of STRIDE does (40_stride.md R105). -/
theorem strideBody_cases (s : State) :
    (widthCheck (s32 s.width) = none ∧ strideBody s =
      .ok (s.setGeometry (bits32 (stride (s32 s.width).toNat)) (bits32 (pad (s32 s.width).toNat)))) ∨
    (∃ c, widthCheck (s32 s.width) = some c ∧ strideBody s = .error ⟨.range, c⟩) := by
  cases h : widthCheck (s32 s.width) with
  | none => exact .inl ⟨rfl, by simp only [strideBody, h]⟩
  | some c => exact .inr ⟨c, rfl, by simp only [strideBody, h]⟩

/-- What the body of BUILD does (41_header_serialize.md R120). -/
theorem buildBody_cases (s : State) :
    (dimsCheck (s32 s.width) (s32 s.height) = none ∧ buildBody s =
      .ok ((s.setFields (Fields.ofFun (buildValue s.width s.height (stride (s32 s.width).toNat)
        (s32 s.height).toNat))).setGeometry (bits32 (stride (s32 s.width).toNat)) (bits32 (pad (s32 s.width).toNat)))) ∨
    (∃ c, dimsCheck (s32 s.width) (s32 s.height) = some c ∧ buildBody s = .error ⟨.range, c⟩) := by
  cases h : dimsCheck (s32 s.width) (s32 s.height) with
  | none => exact .inl ⟨rfl, by simp only [buildBody, h]⟩
  | some c => exact .inr ⟨c, rfl, by simp only [buildBody, h]⟩

/-- What the body of ROWOFF does (40_stride.md R106). -/
theorem rowoffBody_cases (s : State) :
    (dimsCheck (s32 s.width) (s32 s.height) = none ∧ 0 ≤ s32 s.row ∧ s32 s.row < s32 s.height ∧ rowoffBody s =
      .ok (s.setRowoff (bits32 (kHdrLen + (s32 s.height - 1 - s32 s.row).toNat * stride (s32 s.width).toNat)))) ∨
    (dimsCheck (s32 s.width) (s32 s.height) = none ∧ (s32 s.row < 0 ∨ s32 s.height ≤ s32 s.row) ∧
      rowoffBody s = .error ⟨.range, .rowRange⟩) ∨
    (∃ c, dimsCheck (s32 s.width) (s32 s.height) = some c ∧ rowoffBody s = .error ⟨.range, c⟩) := by
  cases h : dimsCheck (s32 s.width) (s32 s.height) with
  | none =>
    by_cases hr : s32 s.row < 0 ∨ s32 s.row ≥ s32 s.height
    · exact .inr (.inl ⟨rfl, hr, by simp only [rowoffBody, h, if_pos hr]⟩)
    · exact .inl ⟨rfl, by omega, by omega, by simp only [rowoffBody, h, if_neg hr]⟩
  | some c => exact .inr (.inr ⟨c, rfl, by simp only [rowoffBody, h]⟩)

/-- What the body of VALIDATE does (42_header_deserialize.md R142). -/
theorem validateBody_cases (s : State) :
    (validateChecks s.xchk s.fields = none ∧ validateBody s =
      .ok ((s.setSize (s.fields.read .width) (s.fields.read .height)).setGeometry
        (bits32 (stride (s32 (s.fields.read .width)).toNat)) (bits32 (pad (s32 (s.fields.read .width)).toNat)))) ∨
    (∃ e, validateChecks s.xchk s.fields = some e ∧ validateBody s = .error e) := by
  unfold validateBody
  cases h : validateChecks s.xchk s.fields with
  | none => exact .inl ⟨rfl, rfl⟩
  | some e => exact .inr ⟨e, rfl, rfl⟩

/-- What the body of ENCODE does (41_header_serialize.md R123). -/
theorem encodeBody_cases (s : State) :
    (∃ t, buildBody s = .ok t ∧ encodeBody s = .ok (packBody t)) ∨
    (∃ e, buildBody s = .error e ∧ encodeBody s = .error e) := by
  unfold encodeBody
  cases h : buildBody s with
  | ok t => exact .inl ⟨t, rfl, rfl⟩
  | error e => exact .inr ⟨e, rfl, rfl⟩

/-- The register an access reaches (20_memory.md R52). -/
theorem accepted_eq_some_iff {a n : Nat} {r : Reg} :
    accepted a n = some r ↔ n = Config.accessBytes ∧ a % 4 = 0 ∧ regAt a = some r := by
  unfold accepted
  by_cases h : n = Config.accessBytes ∧ a % 4 = 0
  · simp [h]
  · rw [if_neg h]
    simp
    tauto

/-- The register map read one way is the map read the other way (20_memory.md R51). -/
theorem regAt_offset (r : Reg) : regAt r.offset = some r := by
  cases r with
  | field f => cases f <;> decide
  | hdrw k => revert k; decide
  | _ => decide

/-- What a write of an accepted access does: a command if it reaches `CMD`, else a store (20_memory.md R54). -/
theorem memWrite_of_accepted {a n : Nat} {r : Reg} (h : accepted a n = some r) (v : Word) (s : State) :
    memWrite a n v s = if r = .cmd then runCommand v (s.respond .ok) else .next (storeReg (s.respond .ok) r v) := by
  unfold memWrite
  rw [h]
  cases r <;> rfl

/-- One step, inverted: what each kind of input does to the state without it (20_memory.md R52, R59). -/
theorem step_cases {s t : State} (h : step s = .next t) :
    (s.inputs = [] ∧ t = s) ∨
    (∃ rest, s.inputs = .hardReset :: rest ∧ t = (s.setInputs rest).resetRegisters) ∨
    (∃ a n rest r, s.inputs = .read a n :: rest ∧ accepted a n = some r ∧
      t = (s.setInputs rest).respond (.data (readValue s r))) ∨
    (∃ a n rest, s.inputs = .read a n :: rest ∧ accepted a n = none ∧ t = (s.setInputs rest).respond .busErr) ∨
    (∃ a n v rest, s.inputs = .write a n v :: rest ∧ accepted a n = none ∧ t = (s.setInputs rest).respond .busErr) ∨
    (∃ a n v rest r, s.inputs = .write a n v :: rest ∧ accepted a n = some r ∧ r ≠ .cmd ∧
      t = storeReg ((s.setInputs rest).respond .ok) r v) ∨
    (∃ a n v rest, s.inputs = .write a n v :: rest ∧ accepted a n = some .cmd ∧
      runCommand v ((s.setInputs rest).respond .ok) = .next t) := by
  unfold step at h
  cases hi : s.inputs with
  | nil =>
    rw [hi] at h
    exact .inl ⟨rfl, by simpa using h.symm⟩
  | cons i rest =>
    rw [hi] at h
    cases i with
    | hardReset => exact .inr (.inl ⟨rest, rfl, by simpa [perform] using h.symm⟩)
    | read a n =>
      simp only [perform, memRead] at h
      cases ha : accepted a n with
      | none =>
        rw [ha] at h
        exact .inr (.inr (.inr (.inl ⟨a, n, rest, rfl, ha, by simpa using h.symm⟩)))
      | some r =>
        rw [ha] at h
        refine .inr (.inr (.inl ⟨a, n, rest, r, rfl, ha, ?_⟩))
        have e : readValue (s.setInputs rest) r = readValue s r := by cases r <;> rfl
        rw [← e]
        simpa using h.symm
    | write a n v =>
      simp only [perform] at h
      cases ha : accepted a n with
      | none =>
        simp only [memWrite, ha] at h
        exact .inr (.inr (.inr (.inr (.inl ⟨a, n, v, rest, rfl, ha, by simpa using h.symm⟩))))
      | some r =>
        rw [memWrite_of_accepted ha] at h
        by_cases hr : r = .cmd
        · subst hr
          exact .inr (.inr (.inr (.inr (.inr (.inr ⟨a, n, v, rest, rfl, ha, by simpa using h⟩)))))
        · rw [if_neg hr] at h
          exact .inr (.inr (.inr (.inr (.inr (.inl ⟨a, n, v, rest, r, rfl, ha, hr, by simpa using h.symm⟩)))))

end Sys2Proof.Machine
end

