-- ==== Sys2Proof/Laws/Claims.lean ====
section
/-! SUPPORT. The terms of the claims beside the terms of the meanings: row lengths, sizes and checks on exact integers
(40_stride.md R100 to R104, 42_header_deserialize.md R141), bytes of a word, and `CTRL.XCHK`. -/

namespace Sys2Proof.Machine

theorem bits32_eq_ofInt (n : Nat) : bits32 n = BitVec.ofInt 32 (n : Int) := by simp [bits32]

theorem statusWord_eq_statusOf (c : Code) (k : Check) (o : Byte) : statusWord c k o = statusOf c.num k.num o.toNat := rfl

theorem rowBytes_of_nonneg {w : Int} (h : 0 ≤ w) : rowBytes w = stride w.toNat := by
  rw [stride_eq, rowBytes]
  omega

theorem pad_of_nonneg {w : Int} (h : 0 ≤ w) : ((pad w.toNat : Nat) : Int) = rowBytes w - 3 * w := by
  rw [pad_eq, rowBytes]
  omega

theorem fileSize_of_nonneg {w h : Int} (hw : 0 ≤ w) (hh : 0 ≤ h) :
    54 + rowBytes w * h = (fileSize w.toNat h.toNat : Int) := by
  rw [fileSize, rowBytes_of_nonneg hw]
  push_cast
  rw [Int.toNat_of_nonneg hh]
  rfl

/-- `CTRL.XCHK` is bit 0 (10_state.md R28). -/
theorem xchk_eq (s : State) : s.xchk = s.ctrl.getLsbD 0 := by
  unfold State.xchk
  have h : s.ctrl.getLsbD 0 = (s.ctrl.extractLsb' 0 1).getLsbD 0 := by simp
  rw [h]
  generalize s.ctrl.extractLsb' 0 1 = b
  revert b
  decide

/-- A byte of a word, as arithmetic and as bits. -/
theorem byte_eq_extractLsb' (v : Word) (j : Nat) : BitVec.ofNat 8 (u32 v / 256 ^ j) = v.extractLsb' (8 * j) 8 := by
  apply BitVec.eq_of_toNat_eq
  rw [BitVec.extractLsb'_toNat, BitVec.toNat_ofNat, Nat.shiftRight_eq_div_pow, pow_mul]
  rfl

theorem hdrByte_of_lt {m : Memory} {j : Nat} (h : j < 54) : hdrByte m j = Memory.read m j := if_pos h

/-- Nothing is listed from position 54 on (10_state.md R33). -/
theorem read_of_ge {m : Memory} (hm : Memory.wf m) {a : Nat} (ha : 54 ≤ a) : Memory.read m a = Memory.unlisted := by
  induction m with
  | nil => rfl
  | cons c l ih =>
    obtain ⟨-, h2, -, h4⟩ := Memory.wf_cons.mp hm
    have hc : c.1 ≠ a := by
      simp only [Config.hdrBytes] at h2
      omega
    rw [Memory.read, if_neg hc]
    exact ih h4

/-- A byte of a window word (20_memory.md R55). -/
theorem byte_of_hdrWord (m : Memory) (k : Nat) {t : Nat} (ht : t < 4) :
    (hdrWord m k).extractLsb' (8 * t) 8 = hdrByte m (4 * k + t) := by
  rw [← byte_eq_extractLsb', u32_hdrWord, byte_of_readLE ht]

/-- The numbers of the header checks. -/
theorem checkFails_range {x : Bool} {F : Fields} {n : Nat} (h : CheckFails x F n) : 1 ≤ n ∧ n ≤ 12 := by
  by_contra hn
  have hout : n = 0 ∨ ∃ k, n = k + 13 := by
    rcases Nat.eq_zero_or_pos n with h0 | h0
    · exact .inl h0
    · exact .inr ⟨n - 13, by omega⟩
  rcases hout with rfl | ⟨k, rfl⟩ <;> exact h

/-- One more check that does not fail. -/
theorem checkFails_below {x : Bool} {F : Fields} {k : Nat} (h : ∀ m, m < k → ¬ CheckFails x F m)
    (hk : ¬ CheckFails x F k) :
    ∀ m, m < k + 1 → ¬ CheckFails x F m := by
  intro m hm
  rcases Nat.lt_succ_iff_lt_or_eq.mp hm with h1 | rfl
  · exact h m h1
  · exact hk

/-- What `validateChecks` answers, in the terms of the claims: nothing for a header that passes, else the first failing
check with its code (42_header_deserialize.md R141, 60_exceptions.md R184). -/
theorem validateChecks_spec (x : Bool) (F : Fields) :
    match validateChecks x F with
    | none => HeaderPasses x F
    | some e => FirstFailure x F e.check.num ∧ e.code.num = checkCode e.check.num ∧
        e.check.num ∈ [1, 2, 3, 4, 5, 6, 7, 8, 9, 10, 11, 12] ∧ (x = false → e.check.num < 10) := by
  have b0 : ∀ m, m < 1 → ¬ CheckFails x F m := fun m hm hc => by have := checkFails_range hc; omega
  unfold validateChecks
  dsimp only
  by_cases c1 : u32 (F.read .magic) ≠ kMagic
  · rw [if_pos c1]; exact ⟨⟨c1, b0⟩, rfl, by decide, fun _ => by decide⟩
  rw [if_neg c1]
  have b1 := checkFails_below b0 c1
  by_cases c2 : u32 (F.read .offbits) ≠ kHdrLen
  · rw [if_pos c2]; exact ⟨⟨c2, b1⟩, rfl, by decide, fun _ => by decide⟩
  rw [if_neg c2]
  have b2 := checkFails_below b1 c2
  by_cases c3 : u32 (F.read .isize) ≠ kIhLen
  · rw [if_pos c3]; exact ⟨⟨c3, b2⟩, rfl, by decide, fun _ => by decide⟩
  rw [if_neg c3]
  have b3 := checkFails_below b2 c3
  by_cases c4 : u32 (F.read .planes) ≠ kPlanes
  · rw [if_pos c4]; exact ⟨⟨c4, b3⟩, rfl, by decide, fun _ => by decide⟩
  rw [if_neg c4]
  have b4 := checkFails_below b3 c4
  by_cases c5 : u32 (F.read .bpp) ≠ kBpp
  · rw [if_pos c5]; exact ⟨⟨c5, b4⟩, rfl, by decide, fun _ => by decide⟩
  rw [if_neg c5]
  have b5 := checkFails_below b4 c5
  by_cases c6 : s32 (F.read .width) < 0
  · rw [if_pos c6]; exact ⟨⟨c6, b5⟩, rfl, by decide, fun _ => by decide⟩
  rw [if_neg c6]
  have b6 := checkFails_below b5 c6
  by_cases c7 : s32 (F.read .height) < 0
  · rw [if_pos c7]; exact ⟨⟨c7, b6⟩, rfl, by decide, fun _ => by decide⟩
  rw [if_neg c7]
  have b7 := checkFails_below b6 c7
  have ew := rowBytes_of_nonneg (not_lt.mp c6)
  have ef := fileSize_of_nonneg (not_lt.mp c6) (not_lt.mp c7)
  have ei : rowBytes (s32 (F.read .width)) * s32 (F.read .height) = (stride (s32 (F.read .width)).toNat * (s32 (F.read .height)).toNat : ℕ) := by
    have : fileSize (s32 (F.read .width)).toNat (s32 (F.read .height)).toNat = 54 + stride (s32 (F.read .width)).toNat * (s32 (F.read .height)).toNat := rfl
    rw [this] at ef; push_cast at ef ⊢; omega
  have k8 : CheckFails x F 8 ↔ stride (s32 (F.read .width)).toNat > Config.maxWord := by
    show rowBytes _ > _ ↔ _
    rw [ew, Config.maxWord]; omega
  have k9 : CheckFails x F 9 ↔ fileSize (s32 (F.read .width)).toNat (s32 (F.read .height)).toNat > Config.maxWord := by
    show 54 + rowBytes _ * _ > _ ↔ _
    rw [ef, Config.maxWord]; omega
  have k10 : CheckFails x F 10 ↔ (x = true ∧ u32 (F.read .comp) ≠ kComp) := Iff.rfl
  have k11 : CheckFails x F 11 ↔ (x = true ∧ u32 (F.read .imgsize) ≠ stride (s32 (F.read .width)).toNat * (s32 (F.read .height)).toNat) := by
    show (x = true ∧ (u32 (F.read .imgsize) : Int) ≠ rowBytes _ * _) ↔ _
    rw [ei]; norm_cast
  have k12 : CheckFails x F 12 ↔ (x = true ∧ u32 (F.read .fsize) ≠ fileSize (s32 (F.read .width)).toNat (s32 (F.read .height)).toNat) := by
    show (x = true ∧ (u32 (F.read .fsize) : Int) ≠ 54 + rowBytes _ * _) ↔ _
    rw [ef]; norm_cast
  by_cases c8 : CheckFails x F 8
  · rw [if_pos (k8.mp c8)]; exact ⟨⟨c8, b7⟩, rfl, by decide, fun _ => by decide⟩
  rw [if_neg (fun h => c8 (k8.mpr h))]
  have b8 := checkFails_below b7 c8
  by_cases c9 : CheckFails x F 9
  · rw [if_pos (k9.mp c9)]; exact ⟨⟨c9, b8⟩, rfl, by decide, fun _ => by decide⟩
  rw [if_neg (fun h => c9 (k9.mpr h))]
  have b9 := checkFails_below b8 c9
  by_cases c10 : CheckFails x F 10
  · rw [if_pos (k10.mp c10)]; exact ⟨⟨c10, b9⟩, rfl, by decide, by intro h; rw [k10] at c10; simp [h] at c10⟩
  rw [if_neg (fun h => c10 (k10.mpr h))]
  have b10 := checkFails_below b9 c10
  by_cases c11 : CheckFails x F 11
  · rw [if_pos (k11.mp c11)]; exact ⟨⟨c11, b10⟩, rfl, by decide, by intro h; rw [k11] at c11; simp [h] at c11⟩
  rw [if_neg (fun h => c11 (k11.mpr h))]
  have b11 := checkFails_below b10 c11
  by_cases c12 : CheckFails x F 12
  · rw [if_pos (k12.mp c12)]; exact ⟨⟨c12, b11⟩, rfl, by decide, by intro h; rw [k12] at c12; simp [h] at c12⟩
  rw [if_neg (fun h => c12 (k12.mpr h))]
  have b12 := checkFails_below b11 c12
  intro n hn
  have := checkFails_range hn
  exact b12 n (by omega) hn

end Sys2Proof.Machine
end

