-- ==== Sys2Proof/Laws/Commands.lean ====
section
/-! SUPPORT. Every command at once: what `exec` can answer, said once for every later claim about all commands. -/

namespace Sys2Proof.Machine

/-- A failed header check reports an error (42_header_deserialize.md R141). -/
theorem code_of_validateChecks {x : Bool} {F : Fields} {e : Failure} (he : validateChecks x F = some e) :
    e.code ≠ .ok := by
  intro hk
  have h := validateChecks_spec x F
  rw [he] at h
  have h2 := h.2.1
  rw [hk] at h2
  unfold checkCode at h2
  split_ifs at h2 <;> simp [Code.num] at h2

/-- Whether a `STATUS` word reports an error (60_exceptions.md R181). -/
theorem err_ne_zero_iff (c : Code) (k : Check) (o : Byte) :
    (statusWord c k o).extractLsb' 0 4 ≠ 0#4 ↔ c ≠ .ok := by
  have h := statusErr_statusWord c k o
  rw [statusErr] at h
  rw [ne_eq, ← BitVec.toNat_inj, h]
  cases c <;> decide

/-- Everything a command can do: an error (DECODE keeps the unpacked fields), or its own result. -/
theorem exec_cases (i : Instr) (s t : State) (h : exec i s = .next t) :
    (∃ e : Failure, i ≠ .decode ∧ e.code ≠ .ok ∧ t = s.setStatus (statusWord e.code e.check i.opc)) ∨
    (∃ e : Failure, i = .decode ∧ e.code ≠ .ok ∧
      t = (s.setFields (unpackFields s.hdr)).setStatus (statusWord e.code e.check i.opc)) ∨
    (i = .nop ∧ t = s.setStatus (statusWord .ok .none i.opc)) ∨
    (i = .sreset ∧ t = s.resetRegisters.setStatus (statusWord .ok .none i.opc)) ∨
    (i = .stride ∧ t = (s.setGeometry (bits32 (stride (s32 s.width).toNat))
        (bits32 (pad (s32 s.width).toNat))).setStatus (statusWord .ok .none i.opc) ∧
      widthCheck (s32 s.width) = none) ∨
    (i = .rowoff ∧ t = (s.setRowoff (bits32 (kHdrLen + (s32 s.height - 1 - s32 s.row).toNat *
        stride (s32 s.width).toNat))).setStatus (statusWord .ok .none i.opc) ∧
      dimsCheck (s32 s.width) (s32 s.height) = none ∧ 0 ≤ s32 s.row ∧ s32 s.row < s32 s.height) ∨
    (∃ F st p m, (i = .build ∧ m = s.hdr ∨ i = .encode ∧ m = packFields F s.hdr) ∧
      F = Fields.ofFun (buildValue s.width s.height (stride (s32 s.width).toNat) (s32 s.height).toNat) ∧
      st = bits32 (stride (s32 s.width).toNat) ∧ p = bits32 (pad (s32 s.width).toNat) ∧
      t = (((s.setFields F).setGeometry st p).setHdr m).setStatus (statusWord .ok .none i.opc) ∧
      dimsCheck (s32 s.width) (s32 s.height) = none) ∨
    (i = .pack ∧ t = (s.setHdr (packFields s.fields s.hdr)).setStatus (statusWord .ok .none i.opc)) ∨
    (i = .unpack ∧ t = (s.setFields (unpackFields s.hdr)).setStatus (statusWord .ok .none i.opc)) ∨
    (∃ F st p, (i = .validate ∧ F = s.fields ∨ i = .decode ∧ F = unpackFields s.hdr) ∧
      st = bits32 (stride (s32 (F.read .width)).toNat) ∧ p = bits32 (pad (s32 (F.read .width)).toNat) ∧
      t = (((s.setFields F).setSize (F.read .width) (F.read .height)).setGeometry st p).setStatus
        (statusWord .ok .none i.opc) ∧
      validateChecks s.xchk F = none) := by
  cases i with
  | nop =>
    rw [exec_nop] at h
    rcases complete_cases h with ⟨u, hu, ht⟩ | ⟨e, he, ht⟩ <;>
      cases ‹Except.ok _ = _›
    simp [ht, succeed_eq]
  | sreset =>
    rw [exec_sreset] at h
    rcases complete_cases h with ⟨u, hu, ht⟩ | ⟨e, he, ht⟩ <;>
      cases ‹Except.ok _ = _›
    simp [ht, succeed_eq]
  | pack =>
    rw [exec_pack] at h
    rcases complete_cases h with ⟨u, hu, ht⟩ | ⟨e, he, ht⟩ <;>
      cases ‹Except.ok _ = _›
    simp [ht, succeed_eq, packBody]
  | unpack =>
    rw [exec_unpack] at h
    rcases complete_cases h with ⟨u, hu, ht⟩ | ⟨e, he, ht⟩ <;>
      cases ‹Except.ok _ = _›
    simp [ht, succeed_eq, unpackBody]
  | stride =>
    rw [exec_stride] at h
    rcases strideBody_cases s with ⟨hc, hb⟩ | ⟨c, hc, hb⟩ <;> rw [hb] at h
    · injection h with h
      subst h
      simp [succeed_eq, hc]
    · injection h with h
      subst h
      left
      exact ⟨⟨.range, c⟩, by decide, by simp, rfl⟩
  | build =>
    rw [exec_build] at h
    rcases buildBody_cases s with ⟨hc, hb⟩ | ⟨c, hc, hb⟩ <;> rw [hb] at h
    · injection h with h
      subst h
      iterate 6 right
      left
      refine ⟨_, _, _, _, .inl ⟨rfl, rfl⟩, rfl, rfl, rfl, ?_, hc⟩
      simp only [succeed_eq, State.setHdr, State.setStatus, State.setFields, State.setGeometry]
    · injection h with h
      subst h
      left
      exact ⟨⟨.range, c⟩, by decide, by simp, rfl⟩
  | encode =>
    rw [exec_encode] at h
    rcases buildBody_cases s with ⟨hc, hb⟩ | ⟨c, hc, hb⟩ <;> rw [encodeBody, hb] at h
    · injection h with h
      subst h
      iterate 6 right
      left
      refine ⟨_, _, _, _, .inr ⟨rfl, rfl⟩, rfl, rfl, rfl, ?_, hc⟩
      simp only [succeed_eq, packBody, State.setHdr, State.setStatus, State.setFields, State.setGeometry]
    · injection h with h
      subst h
      left
      exact ⟨⟨.range, c⟩, by decide, by simp, rfl⟩
  | rowoff =>
    rw [exec_rowoff] at h
    rcases rowoffBody_cases s with ⟨hc, h1, h2, hb⟩ | ⟨hc, h1, hb⟩ | ⟨c, hc, hb⟩ <;> rw [hb] at h
    · injection h with h
      subst h
      iterate 5 right
      left
      exact ⟨rfl, rfl, hc, h1, h2⟩
    · injection h with h
      subst h
      left
      exact ⟨⟨.range, .rowRange⟩, by decide, by decide, rfl⟩
    · injection h with h
      subst h
      left
      exact ⟨⟨.range, c⟩, by decide, by simp, rfl⟩
  | validate =>
    rw [exec_validate] at h
    rcases validateBody_cases s with ⟨hc, hb⟩ | ⟨e, hc, hb⟩ <;> rw [hb] at h
    · injection h with h
      subst h
      iterate 9 right
      refine ⟨_, _, _, .inl ⟨rfl, rfl⟩, rfl, rfl, ?_, hc⟩
      simp only [succeed_eq, State.setSize, State.setStatus, State.setFields, State.setGeometry]
    · injection h with h
      subst h
      left
      exact ⟨e, by decide, code_of_validateChecks hc, rfl⟩
  | decode =>
    rw [exec_decode] at h
    rcases validateBody_cases (unpackBody s) with ⟨hc, hb⟩ | ⟨e, hc, hb⟩ <;> rw [hb] at h
    · injection h with h
      subst h
      iterate 9 right
      refine ⟨_, _, _, .inr ⟨rfl, rfl⟩, rfl, rfl, ?_, hc⟩
      simp only [succeed_eq, unpackBody, State.setSize, State.setStatus, State.setFields, State.setGeometry]
    · injection h with h
      subst h
      right
      left
      exact ⟨e, rfl, code_of_validateChecks hc, rfl⟩

end Sys2Proof.Machine
end

