-- ==== Sys2Proof/Laws/Bus.lean ====
section
/-! SUPPORT. Accesses, said once: the register map read backwards, what a read and a write of a register do, the stores
beside the model's own fields, and running several steps. -/

namespace Sys2Proof.Machine

/-- A mapped offset is that of the register it maps to (20_memory.md R51). -/
theorem offset_of_regAt {a : Nat} {r : Reg} (h4 : a % 4 = 0) (h : regAt a = some r) : Mapped a ∧ r.offset = a := by
  by_cases hb : a ≤ 0xB4
  · interval_cases a <;> first
      | omega
      | (simp [regAt] at h; done)
      | (simp [regAt, Field.all, Field.index] at h
         subst h
         decide)
  · exfalso
    unfold regAt at h
    simp (disch := omega) only [if_neg, dif_neg, reduceCtorEq] at h

theorem accepted_offset (r : Reg) : accepted r.offset 4 = some r := by
  refine accepted_eq_some_iff.mpr ⟨rfl, ?_, regAt_offset r⟩
  cases r with
  | field f => cases f <;> decide
  | hdrw k => simp only [Reg.offset]; omega
  | _ => decide

/-- A read does not see the model's own fields. -/
theorem readValue_host (s : State) (r : Reg) (l : List Input) (x : List Response) :
    readValue { s with inputs := l, responses := x } r = readValue s r := by cases r <;> rfl

@[simp] theorem storeReg_inputs (s : State) (r : Reg) (v : Word) : (storeReg s r v).inputs = s.inputs := by
  cases r <;> rfl

@[simp] theorem storeReg_responses (s : State) (r : Reg) (v : Word) : (storeReg s r v).responses = s.responses := by
  cases r <;> rfl

theorem storeReg_setInputs (s : State) (r : Reg) (v : Word) (l : List Input) :
    storeReg (s.setInputs l) r v = (storeReg s r v).setInputs l := by cases r <;> rfl

theorem storeReg_respond (s : State) (r : Reg) (v : Word) (x : Response) :
    storeReg (s.respond x) r v = (storeReg s r v).respond x := by cases r <;> rfl

/-- A step that reads a register (20_memory.md R52). -/
theorem step_read (s : State) (r : Reg) (rest : List Input) (h : s.inputs = .read r.offset 4 :: rest) :
    step s = .next ((s.setInputs rest).respond (.data (readValue s r))) := by
  rw [step, h]
  simp only [perform, memRead, accepted_offset]
  have e : readValue (s.setInputs rest) r = readValue s r := by cases r <;> rfl
  rw [e]

/-- A step that writes a register other than `CMD` (20_memory.md R52, R54). -/
theorem step_write (s : State) (r : Reg) (v : Word) (rest : List Input) (h : s.inputs = .write r.offset 4 v :: rest)
    (hr : r ≠ .cmd) : step s = .next (storeReg ((s.setInputs rest).respond .ok) r v) := by
  rw [step, h]
  simp only [perform, memWrite_of_accepted (accepted_offset r), if_neg hr]

/-- Writing a header window word twice is writing it once (20_memory.md R57). -/
theorem setHdrWord_setHdrWord {m : Memory} (hm : Memory.wf m) (k : Nat) (v : Word) :
    setHdrWord (setHdrWord m k v) k v = setHdrWord m k v := by
  have h1 := wf_setHdrWord hm k v
  refine hdr_ext (wf_setHdrWord h1 _ _) h1 (fun j _ => ?_)
  rw [hdrByte_setHdrWord h1]
  split_ifs with hc
  · rw [hdrByte_setHdrWord hm, if_pos hc]
  · rfl

theorem run_of_step (M : Host.Core) {k : Nat} {s t : M.State} (h : M.step s = .next t) :
    M.run (k + 1) s = M.run k t := by
  simp only [Host.Core.run, h]

/-- Several steps: the first one, then the others. -/
theorem core_run_of_step {k : Nat} {s t : State} (h : step s = .next t) :
    Sys2Proof.core.run (k + 1) s = Sys2Proof.core.run k t := run_of_step Sys2Proof.core h

/-- Byte `t` of the number in a list of bytes (00_scope.md R9). -/
theorem byte_of_fromLE (l : List Byte) (t : Nat) (ht : t < l.length) :
    BitVec.ofNat 8 (fromLE l / 256 ^ t) = l[t] := by
  induction l generalizing t with
  | nil => simp at ht
  | cons b l ih =>
    have hb := b.isLt
    cases t with
    | zero =>
      simp only [fromLE, Nat.pow_zero, Nat.div_one, List.getElem_cons_zero]
      apply BitVec.eq_of_toNat_eq
      simp only [BitVec.toNat_ofNat]
      omega
    | succ t =>
      simp only [List.length_cons] at ht
      rw [List.getElem_cons_succ, ← ih t (by omega), fromLE, Nat.pow_succ, Nat.mul_comm (256 ^ t) 256,
        ← Nat.div_div_eq_div_mul]
      congr 2
      omega

theorem fromLE_lt (l : List Byte) : fromLE l < 256 ^ l.length := by
  induction l with
  | nil => simp [fromLE]
  | cons b l ih =>
    have hb := b.isLt
    rw [fromLE, List.length_cons, Nat.pow_succ]
    omega

end Sys2Proof.Machine
end

