-- ==== Sys2Proof/Laws/Invariant.lean ====
section
/-! SUPPORT. The invariant under each single update of the state. -/

namespace Sys2Proof.Machine

theorem inv_setStatus {s : State} (h : s.Inv) {v : Word} (h1 : statusExisting v = v)
    (h2 : ((statusErr v).toNat, (statusChk v).toNat) ∈ statusPairs (statusLastop v).toNat) : (s.setStatus v).Inv :=
  ⟨h.hdr, h.ctrl, h1, h2, h.fields, h.geometry, h.rowoff⟩

theorem inv_setSize {s : State} (h : s.Inv) (v w : Word) : (s.setSize v w).Inv :=
  ⟨h.hdr, h.ctrl, h.statusBits, h.statusPair, h.fields, h.geometry, h.rowoff⟩

theorem inv_setFields {s : State} (h : s.Inv) {F : Fields} (h1 : ∀ f, F.raw f = F.read f) :
    (s.setFields F).Inv := ⟨h.hdr, h.ctrl, h.statusBits, h.statusPair, h1, h.geometry, h.rowoff⟩

theorem inv_setHdr {s : State} (h : s.Inv) {m : Memory} (h1 : Memory.wf m) : (s.setHdr m).Inv :=
  ⟨h1, h.ctrl, h.statusBits, h.statusPair, h.fields, h.geometry, h.rowoff⟩

theorem inv_setInputs {s : State} (h : s.Inv) (l : List Input) : (s.setInputs l).Inv :=
  ⟨h.hdr, h.ctrl, h.statusBits, h.statusPair, h.fields, h.geometry, h.rowoff⟩

theorem inv_respond {s : State} (h : s.Inv) (r : Response) : (s.respond r).Inv :=
  ⟨h.hdr, h.ctrl, h.statusBits, h.statusPair, h.fields, h.geometry, h.rowoff⟩

/-- `STRIDE` and `PAD` of one width whose row length fits (10_state.md R24, R25). -/
theorem inv_setGeometry {s : State} (h : s.Inv) {w : Int} (hw : 0 ≤ w) (hs : stride w.toNat ≤ Config.maxWord) :
    (s.setGeometry (bits32 (stride w.toNat)) (bits32 (pad w.toNat))).Inv := by
  refine ⟨h.hdr, h.ctrl, h.statusBits, h.statusPair, h.fields, ⟨w, hw, ?_, ?_, ?_⟩, h.rowoff⟩
  · rw [rowBytes_of_nonneg hw]
    simp only [Config.maxWord] at hs
    omega
  · rw [setGeometry_stride, bits32_eq_ofInt, rowBytes_of_nonneg hw]
  · rw [setGeometry_pad, bits32_eq_ofInt, pad_of_nonneg hw]

end Sys2Proof.Machine
end

