-- ==== Sys2Proof/Laws/PerInstr.lean ====
section
/-! SUPPORT. Statements about every command as syntax, one lemma per constructor. -/

/-- The command's table word has the fixed bits of its row: no reserved bit, an operation code of the map, and the
decoder reads the command back from it (30_encoding.md R70 to R72). -/
def Sys2Proof.Laws.Encoding.Statement (i : Sys2Proof.Instr) : Prop :=
  i.wellFormed = true ∧ Sys2Proof.wordWellFormed (Sys2Proof.encode i) = true ∧
    Sys2Proof.decodeTableWord 32 (Sys2Proof.encode i).toNat = some i

theorem Sys2Proof.Laws.Encoding.nop : Sys2Proof.Laws.Encoding.Statement .nop := ⟨rfl, by decide, by decide⟩

theorem Sys2Proof.Laws.Encoding.stride : Sys2Proof.Laws.Encoding.Statement .stride := ⟨rfl, by decide, by decide⟩

theorem Sys2Proof.Laws.Encoding.build : Sys2Proof.Laws.Encoding.Statement .build := ⟨rfl, by decide, by decide⟩

theorem Sys2Proof.Laws.Encoding.pack : Sys2Proof.Laws.Encoding.Statement .pack := ⟨rfl, by decide, by decide⟩

theorem Sys2Proof.Laws.Encoding.unpack : Sys2Proof.Laws.Encoding.Statement .unpack := ⟨rfl, by decide, by decide⟩

theorem Sys2Proof.Laws.Encoding.validate : Sys2Proof.Laws.Encoding.Statement .validate := ⟨rfl, by decide, by decide⟩

theorem Sys2Proof.Laws.Encoding.encode : Sys2Proof.Laws.Encoding.Statement .encode := ⟨rfl, by decide, by decide⟩

theorem Sys2Proof.Laws.Encoding.decode : Sys2Proof.Laws.Encoding.Statement .decode := ⟨rfl, by decide, by decide⟩

theorem Sys2Proof.Laws.Encoding.sreset : Sys2Proof.Laws.Encoding.Statement .sreset := ⟨rfl, by decide, by decide⟩

theorem Sys2Proof.Laws.Encoding.rowoff : Sys2Proof.Laws.Encoding.Statement .rowoff := ⟨rfl, by decide, by decide⟩
end

