-- ==== Sys2Proof/Tests/Slice0.lean ====
section
/-! SUPPORT. The model's own tests, with the expected results of spec/95_test_vectors.md and of the rules' own examples,
and for every statement with hypotheses a named witness that meets them. -/

namespace Sys2Proof.Machine

/-- The next state of an outcome. -/
def out (o : Host.Outcome State Fault Refusal) : Option State :=
  match o with
  | .next s => some s
  | .fault _ => none
  | .refused _ => none

/-- A state with a size and a row, else as after reset. -/
def sized (w h r : Word) : State := { State.reset with width := w, height := h, row := r }

/-- A state whose next access is `i`. -/
def facing (i : Input) : State := { State.reset with inputs := [i] }

/-- Running one command. -/
def after (i : Instr) (s : State) : State := (out (exec i s)).getD s

/-- Running one step. -/
def stepped (s : State) : State := (out (step s)).getD s

/-- The fields of a 5x2 header (95_test_vectors.md 2.5, P2). -/
def fields5x2 : Fields :=
  { magic := 0x4D42, fsize := 0x56, rsvd := 0, offbits := 0x36, isize := 0x28, width := 5, height := 2, planes := 1,
    bpp := 0x18, comp := 0, imgsize := 0x20, xres := 0x2E23, yres := 0x2E23, clrused := 0, clrimp := 0x1000000 }

/-- The wire bytes of the same header (95_test_vectors.md P2). -/
def hdr5x2 : Memory :=
  [(0, 0x42), (1, 0x4D), (2, 0x56), (10, 0x36), (14, 0x28), (18, 0x05), (22, 0x02), (26, 0x01)] ++
  [(28, 0x18), (34, 0x20), (38, 0x23), (39, 0x2E), (42, 0x23), (43, 0x2E), (53, 0x01)]

/-- The header buffer with `HDR[j] = j` (95_test_vectors.md 2.4). -/
def ramp : Memory := (List.range 53).map (fun j => (j + 1, BitVec.ofNat 8 (j + 1)))

/-! ### Well-formed words, and decoding (30_encoding.md R70 to R74) -/

theorem test_reserved_bits_are_ill_formed : rsvClear 0x00000101 = false ∧ wordWellFormed 0x00000101 = false ∧
    decode 0x00000101 = .error .reservedBits := by decide

theorem test_unmapped_opcode_is_ill_formed : opcMapped 0x0000000A = false ∧ wordWellFormed 0x0000000A = false ∧
    decode 0x0000000A = .error .unmappedOpcode := by decide

theorem test_last_opcode_is_well_formed : wordWellFormed 0x00000009 = true ∧ wordWellFormed 0x000000FF = false := by
  decide

theorem test_decode_nop : decode 0b00000000000000000000000000000000#32 = .ok .nop := by decide

theorem test_decode_stride : decode 0b00000000000000000000000000000001#32 = .ok .stride := by decide

theorem test_decode_build : decode 0b00000000000000000000000000000010#32 = .ok .build := by decide

theorem test_decode_pack : decode 0b00000000000000000000000000000011#32 = .ok .pack := by decide

theorem test_decode_unpack : decode 0b00000000000000000000000000000100#32 = .ok .unpack := by decide

theorem test_decode_validate : decode 0b00000000000000000000000000000101#32 = .ok .validate := by decide

theorem test_decode_encode : decode 0b00000000000000000000000000000110#32 = .ok .encode := by decide

theorem test_decode_decode : decode 0b00000000000000000000000000000111#32 = .ok .decode := by decide

theorem test_decode_sreset : decode 0b00000000000000000000000000001000#32 = .ok .sreset := by decide

theorem test_decode_rowoff : decode 0b00000000000000000000000000001001#32 = .ok .rowoff := by decide

theorem test_table_words : decodeTableWord 32 9 = some .rowoff ∧ decodeTableWord 32 10 = none ∧
    decodeTableWord 8 7 = some .decode := by decide

/-- 95_test_vectors.md P5 steps 18 and 30, as the first step after reset. -/
theorem test_first_step_runs_the_word :
    (stepped (State.reset.withFetchWord 32 8)).status = 0x00080000 ∧
    (stepped (State.reset.withFetchWord 32 10)).status = 0x000A0F04 := by decide

/-! ### The commands -/

/-- 42_header_deserialize.md R140, example, and 95_test_vectors.md 2.1: the patterns of -1, -2^31 and 2^31 - 1. -/
theorem test_signed_readings :
    s32 0xFFFFFFFF = -1 ∧ s32 0x80000000 = -2147483648 ∧ s32 0x7FFFFFFF = 2147483647 := by decide

/-- The stride table of 95_test_vectors.md 1.1 and 2.1. -/
theorem test_stride_table : [0, 1, 2, 3, 4, 5, 9, 101, 640].map stride = [0, 4, 8, 12, 12, 16, 28, 304, 1920] ∧
    [0, 1, 2, 3, 4, 5, 9, 101, 640].map pad = [0, 1, 2, 3, 0, 1, 1, 1, 0] := by decide

/-- 43_control.md R170, example. -/
theorem test_nop_clears_an_error :
    exec .nop { State.reset with status := 0x00070101, stride := 7 } = .next { State.reset with stride := 7 } := rfl

/-- 40_stride.md R105, example. -/
theorem test_stride_of_five : (after .stride (sized 5 0xFFFFFFFF 0)).stride = 16 ∧
    (after .stride (sized 5 0xFFFFFFFF 0)).pad = 1 ∧
    (after .stride (sized 5 0xFFFFFFFF 0)).status = 0x00010000 := by decide

/-- 95_test_vectors.md 2.2: the first width that overflows leaves `STRIDE`. -/
theorem test_stride_overflow :
    (after .stride { sized 0x55555555 0 0 with stride := 0x1234 }).stride = 0x1234 ∧
    (after .stride { sized 0x55555555 0 0 with stride := 0x1234 }).status = 0x00010803 := by decide

/-- 95_test_vectors.md 2.3.3: the largest width for height 1. -/
theorem test_build_largest_width : (after .build (sized 1431655746 1 0)).fields.fsize = 0xFFFFFFFE ∧
    (after .build (sized 1431655746 1 0)).fields.imgsize = 0xFFFFFFC8 ∧
    (after .build (sized 1431655746 1 0)).pad = 2 := by decide

/-- 95_test_vectors.md 2.3.3: which check comes first. -/
theorem test_build_order_of_checks : (after .build (sized 0xFFFFFFFF 0xFFFFFFFF 0)).status = 0x00020603 ∧
    (after .build (sized 0x7FFFFFFF 0 0)).status = 0x00020803 ∧
    (after .build (sized 1431655747 1 0)).status = 0x00020903 := by decide

/-- 95_test_vectors.md 2.3.4: PACK packs what the registers hold. -/
theorem test_pack_width_bytes :
    (after .pack { State.reset with fields := { Fields.reset with
      isize := 0xFFFFFFFF, width := 0x12345678, height := 0xFFFFFFFF } }).hdr.filter (fun c => 16 ≤ c.1 ∧ c.1 < 24) =
    [(16, 0xFF), (17, 0xFF), (18, 0x78), (19, 0x56), (20, 0x34), (21, 0x12), (22, 0xFF), (23, 0xFF)] := by decide

/-- 95_test_vectors.md 2.3.4: from reset, every word stays 0. -/
theorem test_pack_from_reset : (after .pack State.reset).hdr = [] ∧ (after .pack State.reset).status = 0x00030000 := by
  decide

/-- 95_test_vectors.md 2.4, the ramp. -/
theorem test_unpack_ramp : (after .unpack { State.reset with hdr := ramp }).fields.magic = 0x0100 ∧
    (after .unpack { State.reset with hdr := ramp }).fields.width = 0x15141312 ∧
    (after .unpack { State.reset with hdr := ramp }).fields.planes = 0x1B1A ∧
    (after .unpack { State.reset with hdr := ramp }).fields.clrimp = 0x35343332 := by decide

/-- 95_test_vectors.md 2.5: check 1 comes before check 5, and `WIDTH` stays. -/
theorem test_validate_first_check :
    (after .validate { sized 0x77 2 0 with fields := { fields5x2 with magic := 0x4242, bpp := 32 } }).status =
      0x00050101 ∧
    (after .validate { sized 0x77 2 0 with fields := { fields5x2 with magic := 0x4242, bpp := 32 } }).width =
      0x77 := by decide

/-- 95_test_vectors.md 2.5: a 0x0 header with stale sizes, without and with the cross-checks. -/
theorem test_validate_cross_checks :
    (after .validate { State.reset with fields := { fields5x2 with width := 0, height := 0 } }).status =
      0x00050000 ∧
    (after .validate { State.reset with ctrl := 1, fields := { fields5x2 with width := 0, height := 0 } }).status =
      0x00050B02 := by decide

/-- 95_test_vectors.md 2.3.2, the 5x2 header as P2 lists its words. -/
theorem test_encode_5x2 : (after .encode (sized 5 2 0)).hdr = hdr5x2 ∧
    (after .encode (sized 5 2 0)).stride = 16 ∧ (after .encode (sized 5 2 0)).status = 0x00060000 := by decide

/-- 95_test_vectors.md P5 step 17. -/
theorem test_encode_negative_width :
    exec .encode (sized 0xFFFFFFFF 1 0) = .next { sized 0xFFFFFFFF 1 0 with status := 0x00060603 } := by rfl

/-- 95_test_vectors.md P2. -/
theorem test_decode_with_cross_checks :
    (after .decode { State.reset with ctrl := 1, hdr := hdr5x2 }).status = 0x00070000 ∧
    (after .decode { State.reset with ctrl := 1, hdr := hdr5x2 }).width = 5 ∧
    (after .decode { State.reset with ctrl := 1, hdr := hdr5x2 }).stride = 0x10 ∧
    (after .decode { State.reset with ctrl := 1, hdr := hdr5x2 }).fields = fields5x2 := by decide

/-- 95_test_vectors.md P3 steps 5 to 8: a failed DECODE keeps the unpacked fields and loads no geometry. -/
theorem test_decode_failure_keeps_fields :
    (after .decode { sized 9 0 0 with hdr := setHdrWord hdr5x2 0 0x00564E42 }).status = 0x00070101 ∧
    (after .decode { sized 9 0 0 with hdr := setHdrWord hdr5x2 0 0x00564E42 }).width = 9 ∧
    (after .decode { sized 9 0 0 with hdr := setHdrWord hdr5x2 0 0x00564E42 }).fields.magic = 0x4E42 := by decide

/-- 95_test_vectors.md P5 steps 30 to 32. -/
theorem test_sreset_clears :
    exec .sreset { sized 5 2 1 with ctrl := 1, stride := 16, fields := fields5x2, hdr := hdr5x2 } =
    .next { State.reset with status := 0x00080000 } := by rfl

/-- 40_stride.md R106, example, and the bottom row. -/
theorem test_rowoff_2x3 : (after .rowoff (sized 2 3 0)).rowoff = 70 ∧ (after .rowoff (sized 2 3 2)).rowoff = 54 := by
  decide

/-- 95_test_vectors.md P1 steps 22 to 25. -/
theorem test_rowoff_past_the_end : (after .rowoff { sized 2 3 3 with rowoff := 0x36 }).status = 0x00090D03 ∧
    (after .rowoff { sized 2 3 3 with rowoff := 0x36 }).rowoff = 0x36 := by decide

/-! ### The bus -/

/-- 43_control.md R172, corner case and 95_test_vectors.md P5 step 19. -/
theorem test_illegal_word : (stepped (facing (wr .cmd 0x101))).status = 0x00010F04 ∧
    (stepped (facing (wr .cmd 0xFFFFFFFF))).status = 0x00FF0F04 ∧
    (stepped (facing (wr .cmd 0x101))).responses = [.ok] := by decide

/-- 95_test_vectors.md P5 steps 20 and 21, and a narrow and a misaligned access (20_memory.md R52). -/
theorem test_reads_and_bus_errors : (stepped (facing (rd .cmd))).responses = [.data 0] ∧
    (stepped (facing (rdRaw 0x24))).responses = [.busErr] ∧ (stepped (facing (.read 0x0C 2))).responses = [.busErr] ∧
    (stepped (facing (.write 0x0E 4 1))).responses = [.busErr] := by decide

/-- 95_test_vectors.md P5 steps 23 to 28. -/
theorem test_masked_writes : (stepped (facing (wr .status 0x1234))).status = 0 ∧
    (stepped (facing (wr (.field .planes) 0xABCD0001))).fields.planes = 1 ∧
    (stepped (facing (wr .ctrl 0xFFFFFFFF))).ctrl = 1 := by decide

/-- The last window word holds bytes 52 to 55, of which 54 and 55 do not exist (20_memory.md R55). -/
theorem test_last_window_word : (stepped (facing (wrhdr 13 0xFFFFFFFF))).hdr = [(52, 0xFF), (53, 0xFF)] ∧
    (stepped { facing (rd (.hdrw 13)) with hdr := ramp }).responses = [.data 0x00003534] := by decide

/-- The header of 95_test_vectors.md P2 as `LOADHDR` would write it: its first and last words (30_encoding.md R76). -/
theorem test_loadhdr_words : (loadhdr (List.replicate 53 1 ++ [2]))[0]? = some (.write 0x80 4 0x01010101) ∧
    (loadhdr (List.replicate 53 1 ++ [2]))[13]? = some (.write 0xB4 4 0x00000201) := by decide

/-- A host address in the window is an access; one beyond it is not (20_memory.md R50). -/
theorem test_window_at_base :
    (State.reset.issue 0x40000000 [.read 0x40000008 4, .read 0x40000100 4]).inputs = [rd .status] := by decide

/-! ### Witnesses: for every statement with hypotheses, states and operands that meet them, clause by clause -/

theorem witness_FieldsTileTheHeader : (53 < 54 ∧ Field.wireOffset .clrimp ≤ 53 ∧
    53 < Field.wireOffset .clrimp + Field.wireSize .clrimp) ∧ 0 < 54 ∧ Field.wireOffset .magic ≤ 0 ∧
    0 < Field.wireOffset .magic + Field.wireSize .magic := by decide

theorem witness_StrideProperties : (3 : Nat) ≤ 4 := by decide

theorem witness_NopWritesStatusOnly : Instr.rowoff ≠ .nop ∧ Instr.rowoff ≠ .sreset := by decide

theorem witness_StrideResult_completes :
    (0 ≤ s32 (sized 0 0 0).width ∧ s32 (sized 0 0 0).width ≤ 1431655764) ∧
    (0 ≤ s32 (sized 1431655764 0 0).width ∧ s32 (sized 1431655764 0 0).width ≤ 1431655764) := by decide

theorem witness_StrideResult_negative : s32 (sized 0xFFFFFFFF 0 0).width < 0 ∧ s32 (sized 0x80000000 0 0).width < 0 := by
  decide

theorem witness_StrideResult_overflow :
    1431655764 < s32 (sized 1431655765 0 0).width ∧ 1431655764 < s32 (sized 0x7FFFFFFF 0 0).width := by decide

theorem witness_StrideTwiceIsStride :
    exec .stride (sized 5 0 0) = .next { sized 5 0 0 with stride := 16, pad := 1, status := 0x00010000 } := by rfl

/-- The dimensions of a state fit: 0x0, the largest width for height 1, the largest height for width 1. -/
theorem witness_DimsFit : DimsFit (s32 (sized 0 0 0).width) (s32 (sized 0 0 0).height) ∧
    DimsFit (s32 (sized 1431655746 1 0).width) (s32 (sized 1431655746 1 0).height) ∧
    DimsFit (s32 (sized 1 1073741810 0).width) (s32 (sized 1 1073741810 0).height) := by decide

/-- Each of the four dimension checks fails first somewhere. -/
theorem witness_DimsFailure : DimsFailure (s32 (sized 0xFFFFFFFF 0xFFFFFFFF 0).width) (s32 (sized 0xFFFFFFFF 0xFFFFFFFF 0).height) 6 ∧
    DimsFailure (s32 (sized 0 0xFFFFFFFF 0).width) (s32 (sized 0 0xFFFFFFFF 0).height) 7 ∧
    DimsFailure (s32 (sized 1431655765 0 0).width) (s32 (sized 1431655765 0 0).height) 8 ∧
    DimsFailure (s32 (sized 1431655747 1 0).width) (s32 (sized 1431655747 1 0).height) 9 := by
  simp only [DimsFailure]
  decide

/-- The last and the first row of a 2x3 image. -/
theorem witness_RowoffResult_completes :
    (DimsFit (s32 (sized 2 3 2).width) (s32 (sized 2 3 2).height) ∧ 0 ≤ s32 (sized 2 3 2).row ∧
      s32 (sized 2 3 2).row < s32 (sized 2 3 2).height) ∧
    DimsFit (s32 (sized 2 3 0).width) (s32 (sized 2 3 0).height) ∧ 0 ≤ s32 (sized 2 3 0).row ∧
      s32 (sized 2 3 0).row < s32 (sized 2 3 0).height := by decide

theorem witness_RowoffResult_fails :
    DimsFailure (s32 (sized 0xFFFFFFFF 3 0).width) (s32 (sized 0xFFFFFFFF 3 0).height) 6 := by
  simp only [DimsFailure]
  decide

/-- One row past either end, and the only row of an image without rows. -/
theorem witness_RowoffResult_row_range :
    (DimsFit (s32 (sized 2 3 3).width) (s32 (sized 2 3 3).height) ∧
      s32 (sized 2 3 3).height ≤ s32 (sized 2 3 3).row) ∧
    (DimsFit (s32 (sized 2 3 0xFFFFFFFF).width) (s32 (sized 2 3 0xFFFFFFFF).height) ∧
      s32 (sized 2 3 0xFFFFFFFF).row < 0) ∧
    DimsFit (s32 (sized 2 0 0).width) (s32 (sized 2 0 0).height) ∧
      s32 (sized 2 0 0).height ≤ s32 (sized 2 0 0).row := by decide

theorem witness_BuildResult_completes : DimsFit (s32 (sized 5 2 0).width) (s32 (sized 5 2 0).height) := by decide

theorem witness_BuildResult_fails :
    DimsFailure (s32 (sized 0x7FFFFFFF 0 0).width) (s32 (sized 0x7FFFFFFF 0 0).height) 8 := by
  simp only [DimsFailure]
  decide

theorem witness_EncodeIsBuildThenPack :
    DimsFit (s32 (sized 1 1073741810 0).width) (s32 (sized 1 1073741810 0).height) ∧
    DimsFailure (s32 (sized 1 1073741811 0).width) (s32 (sized 1 1073741811 0).height) 9 := by
  simp only [DimsFailure]
  decide

/-- A canonical header buffer that is not empty. -/
theorem witness_canonical_header : Memory.wf ({ State.reset with hdr := hdr5x2 } : State).hdr := by decide

theorem witness_PackWritesWireBytes : Memory.wf ({ State.reset with hdr := ramp } : State).hdr ∧
    (1 < Field.wireSize .magic ∧ 3 < Field.wireSize .clrimp) ∧ 54 ≤ 54 := by decide

theorem witness_UnpackReadsWireBytes : 1 < Field.wireSize .planes ∧ 3 < Field.wireSize .width := by decide

theorem witness_UnpackInvertsPack : Memory.wf ({ State.reset with fields := fields5x2, hdr := ramp } : State).hdr := by
  decide

theorem witness_PackInvertsUnpack : Memory.wf ({ State.reset with hdr := ramp } : State).hdr := by decide

theorem witness_DecodeInvertsEncode : Memory.wf ({ sized 5 2 0 with hdr := ramp } : State).hdr ∧
    DimsFit (s32 ({ sized 5 2 0 with hdr := ramp } : State).width) (s32 ({ sized 5 2 0 with hdr := ramp } : State).height) := by
  decide

theorem witness_HeaderPasses : HeaderPasses true fields5x2 := by
  have h := validateChecks_spec true fields5x2
  rwa [show validateChecks true fields5x2 = none from by decide] at h

theorem witness_ValidateResult_passes :
    HeaderPasses (({ State.reset with ctrl := 1, fields := fields5x2 } : State).ctrl.getLsbD 0)
      ({ State.reset with ctrl := 1, fields := fields5x2 } : State).fields := witness_HeaderPasses

/-- A first failing check, from what `validateChecks` answers. -/
theorem firstFailure_of {x : Bool} {F : Fields} {e : Failure} (h : validateChecks x F = some e) :
    FirstFailure x F e.check.num := by
  have t := validateChecks_spec x F
  rw [h] at t
  exact t.1

theorem witness_FirstFailure_1 : FirstFailure false { fields5x2 with magic := 0x4242 } 1 :=
  firstFailure_of (e := ⟨.invalidFormat, .magic⟩) (by decide)

theorem witness_FirstFailure_2 : FirstFailure false { fields5x2 with offbits := 0 } 2 :=
  firstFailure_of (e := ⟨.corrupted, .offset⟩) (by decide)

theorem witness_FirstFailure_3 : FirstFailure false { fields5x2 with isize := 124 } 3 :=
  firstFailure_of (e := ⟨.corrupted, .infoSize⟩) (by decide)

theorem witness_FirstFailure_4 : FirstFailure false { fields5x2 with planes := 2 } 4 :=
  firstFailure_of (e := ⟨.corrupted, .planes⟩) (by decide)

theorem witness_FirstFailure_5 : FirstFailure false { fields5x2 with bpp := 32 } 5 :=
  firstFailure_of (e := ⟨.corrupted, .bpp⟩) (by decide)

theorem witness_FirstFailure_6 : FirstFailure false { fields5x2 with width := 0xFFFFFFFF } 6 :=
  firstFailure_of (e := ⟨.corrupted, .widthNegative⟩) (by decide)

theorem witness_FirstFailure_7 : FirstFailure false { fields5x2 with height := 0xFFFFFFFE } 7 :=
  firstFailure_of (e := ⟨.corrupted, .heightNegative⟩) (by decide)

theorem witness_FirstFailure_8 : FirstFailure false { fields5x2 with width := 1431655765 } 8 :=
  firstFailure_of (e := ⟨.range, .strideRange⟩) (by decide)

theorem witness_FirstFailure_9 : FirstFailure false { fields5x2 with width := 1431655764, height := 1 } 9 :=
  firstFailure_of (e := ⟨.range, .sizeRange⟩) (by decide)

theorem witness_FirstFailure_10 : FirstFailure true { fields5x2 with comp := 1 } 10 :=
  firstFailure_of (e := ⟨.corrupted, .compression⟩) (by decide)

theorem witness_FirstFailure_11 : FirstFailure true { fields5x2 with imgsize := 30 } 11 :=
  firstFailure_of (e := ⟨.corrupted, .imageSize⟩) (by decide)

theorem witness_FirstFailure_12 : FirstFailure true { fields5x2 with fsize := 0 } 12 :=
  firstFailure_of (e := ⟨.corrupted, .fileSize⟩) (by decide)

theorem witness_ValidateTwiceIsValidate : ∃ t, exec .validate { State.reset with fields := fields5x2 } = .next t :=
  exec_next _ _

theorem witness_DecodeResult_passes :
    HeaderPasses (({ State.reset with ctrl := 1, hdr := hdr5x2 } : State).ctrl.getLsbD 0) (unpackFields hdr5x2) := by
  rw [show unpackFields hdr5x2 = fields5x2 from by decide]
  exact witness_HeaderPasses

theorem witness_DecodeResult_fails : FirstFailure (State.reset.ctrl.getLsbD 0) (unpackFields State.reset.hdr) 1 :=
  firstFailure_of (e := ⟨.invalidFormat, .magic⟩) (by decide)

theorem witness_IllegalWordWritesStatusOnly :
    ((facing (wr .cmd 0x0A)).inputs = [.write 0x04 4 0x0A] ∧ 9 < (0x0A : Word).toNat % 256) ∧
    ((facing (wr .cmd 0x100)).inputs = [.write 0x04 4 0x100] ∧ (0x100 : Word).toNat / 256 ≠ 0) := by decide

/-- Fields that differ only where no check reads, with `XCHK` on and off. -/
theorem witness_UncheckedFieldsDoNotMatter :
    (∀ f ∈ [Field.magic, .offbits, .isize, .width, .height, .planes, .bpp, .comp, .imgsize, .fsize],
      ({ fields5x2 with rsvd := 0xFFFFFFFF, xres := 0, clrimp := 0 } : Fields).read f = fields5x2.read f) ∧
    ((0 : Word).getLsbD 0 = false ∧
      ∀ f ∈ [Field.magic, .offbits, .isize, .width, .height, .planes, .bpp],
        ({ fields5x2 with comp := 1, imgsize := 0, fsize := 0 } : Fields).read f = fields5x2.read f) := by decide

/-- Every command has a next state, so the rules over all commands speak of each. -/
theorem witness_exec_next : ∀ i : Instr, ∃ t, exec i (sized 2 3 1) = .next t := fun i => exec_next i _

theorem witness_EveryCommandReports : ∃ t, exec .rowoff (sized 2 3 3) = .next t := exec_next _ _

theorem witness_CommandsReportTheirPairs : (∃ t, exec .validate (sized 2 3 1) = .next t) ∧
    (sized 2 3 1).ctrl.getLsbD 0 = false := ⟨exec_next _ _, by decide⟩

theorem witness_FailureWritesStatusOnly :
    ((out (exec .encode (sized 0xFFFFFFFF 0 0))).map (fun t => t.status.extractLsb' 0 4) = some 3#4 ∧
      Instr.encode ≠ .decode) ∧
    (out (exec .decode State.reset)).map (fun t => t.status.extractLsb' 0 4) = some 1#4 := by decide

theorem witness_CommandsWriteTheirRegisters : (∃ t, exec .nop (sized 2 3 1) = .next t) ∧ Instr.nop ≠ .sreset ∧
    Instr.nop ∉ [Instr.validate, .decode] ∧ Instr.nop ∉ [Instr.stride, .build, .encode, .validate, .decode] ∧
    Instr.nop ≠ .rowoff ∧ Instr.nop ∉ [Instr.build, .encode, .unpack, .decode] ∧ Instr.nop ∉ [Instr.pack, .encode] :=
  ⟨exec_next _ _, by decide⟩

theorem witness_OnlyXchkOfCtrlIsRead :
    ((∃ t, exec .decode { sized 2 3 1 with ctrl := 1 } = .next t) ∧ Instr.decode ≠ .sreset ∧
      (0xFFFFFFFF : Word).getLsbD 0 = (1 : Word).getLsbD 0) ∧
    (∃ t, exec .encode { sized 2 3 1 with ctrl := 1 } = .next t) ∧ Instr.encode ∉ [Instr.validate, .decode] :=
  ⟨⟨exec_next _ _, by decide⟩, exec_next _ _, by decide⟩

theorem witness_StaleResultsAreNeverRead :
    ((out (exec .stride (sized 5 0 0))).map (fun t => t.status.extractLsb' 0 4) = some 0#4 ∧
      Instr.stride ∈ [Instr.stride, .build, .encode, .validate, .decode]) ∧
    (out (exec .rowoff (sized 2 3 0))).map (fun t => t.status.extractLsb' 0 4) = some 0#4 := by decide

theorem witness_CommandsLeaveTheHostSide : ∃ t, exec .sreset (facing (rd .status)) = .next t := exec_next _ _

theorem witness_StepRunsTheDecodedCommand :
    (facing (wr .cmd 0x09)).inputs = [.write 0x04 4 0x09] ∧ decode 0x09 = .ok .rowoff := by decide

/-- Unmapped on each edge of the map, narrow and misaligned, as a read and as a write. -/
theorem witness_RefusedAccessChangesNothing :
    (∀ a ∈ [0x24, 0x3C, 0x7C, 0xB8, 0xFC], ¬Accepted a 4) ∧ ¬Accepted 0x0C 2 ∧ ¬Accepted 0x0D 4 ∧
    (facing (.read 0x24 4)).inputs = [.read 0x24 4] ∧ (facing (.write 0x24 4 7)).inputs = [.write 0x24 4 7] := by
  decide

theorem witness_RegisterMapIsOneToOne :
    ∀ a ∈ [0x00, 0x20, 0x40, 0x78, 0x80, 0xB4], a % 4 = 0 ∧ Mapped a := by decide

theorem witness_ReadReturnsTheRegister :
    ∀ r ∈ [Reg.ctrl, .cmd, .status, .width, .height, .stride, .pad, .row, .rowoff, .field .magic, .field .clrimp,
        .hdrw 0, .hdrw 13], (facing (rd r)).inputs = [.read r.offset 4] := by decide

theorem witness_WriteStoresTheRegister :
    ∀ r ∈ [Reg.ctrl, .status, .width, .height, .stride, .pad, .row, .rowoff, .field .magic, .field .clrimp],
      (facing (wr r 0xFFFFFFFF)).inputs = [.write r.offset 4 0xFFFFFFFF] := by decide

theorem witness_WindowWriteStoresBytes :
    (Memory.wf (facing (wrhdr 13 0xFFFFFFFF)).hdr ∧
      (facing (wrhdr 13 0xFFFFFFFF)).inputs = [.write (0x80 + 4 * (13 : Fin 14).val) 4 0xFFFFFFFF]) ∧
    (1 < 4 ∧ 4 * (13 : Fin 14).val + 1 < 54) ∧ ¬(4 * (13 : Fin 14).val ≤ 54 ∧ 54 < 4 * (13 : Fin 14).val + 4 ∧ 54 < 54) := by
  decide

theorem witness_ReadsArePureAndWritesIdempotent :
    ({ State.reset with inputs := [rd .status, rd .status] } : State).inputs = [.read 0x08 4, .read 0x08 4] ∧
    (Memory.wf State.reset.hdr ∧ (0x80 : Nat) ≠ 0x04 ∧
      ({ State.reset with inputs := [wrhdr 0 7, wrhdr 0 7] } : State).inputs = [.write 0x80 4 7, .write 0x80 4 7] ∧
      (out (step { State.reset with inputs := [wrhdr 0 7, wrhdr 0 7] })).isSome = true) := by decide

theorem witness_CommandIsVisibleAtOnce :
    ({ sized 5 2 0 with inputs := [cmd .encode, rd (.hdrw 0)] } : State).inputs =
      [.write 0x04 4 (encode .encode), .read (Reg.hdrw 0).offset 4] ∧
    ∃ u, exec .encode { sized 5 2 0 with inputs := [cmd .encode, rd (.hdrw 0)] } = .next u :=
  ⟨by decide, exec_next _ _⟩

theorem witness_AccessesTakeEffectInOrder : ((facing (rd .status)).inputs = [.read 0x08 4] ∧
      (out (step (facing (rd .status)))).isSome = true ∧ Input.read 0x08 4 ≠ .hardReset) ∧
    (facing .hardReset).inputs = [.hardReset] ∧ (out (step (facing .hardReset))).isSome = true := by decide

theorem witness_OnlyCommandsChangeResults : (out (step (facing (wr .width 5)))).isSome = true ∧
    (facing (wr .width 5)).inputs.head? ≠ some .hardReset ∧
    ∀ c : Word, (facing (wr .width 5)).inputs.head? ≠ some (.write 0x04 4 c) :=
  ⟨by decide, by decide, fun c h => by simp [facing, wr, Reg.offset] at h⟩

theorem witness_IdleStepKeepsTheState : State.reset.inputs = [] := rfl

theorem witness_WindowSitsAtBase : (0xFF : Nat) ≤ 0xFF ∧ (0x3FFFFFFF : Nat) < 0x40000000 ∧ 0x40000000 + 0xFF < 0x40000100 := by
  decide

theorem witness_LoadhdrLoadsTheBuffer : Memory.wf ({ State.reset with hdr := ramp } : State).hdr ∧
    (List.replicate 54 (1 : Byte)).length = 54 ∧
    ({ State.reset with inputs := loadhdr (List.replicate 54 1) ++ [rd .status] } : State).inputs =
      loadhdr (List.replicate 54 1) ++ [rd .status] := ⟨by decide, rfl, rfl⟩

theorem witness_HardwareResetClearsEverything : (facing .hardReset).inputs = [.hardReset] := rfl

/-- A state that meets the invariant: after ENCODE of 5x2, with a DECODE to come. -/
def encoded5x2 : State :=
  { sized 5 2 0 with
    stride := 16, pad := 1, status := 0x00060000, fields := fields5x2, hdr := hdr5x2, inputs := [cmd .decode] }

/-- The invariant is met by a state that is not the reset state, and its step goes on. -/
theorem witness_StepKeepsInvariant :
    encoded5x2.Inv ∧ (out (step encoded5x2)).isSome = true := by
  refine ⟨⟨by decide, by decide, by decide, by decide, fun f => by cases f <;> decide,
    ⟨5, by decide, by decide, by decide, by decide⟩, .inl rfl⟩, by decide⟩

theorem witness_MagicIsTheBytesBM : Memory.wf ({ sized 5 2 0 with hdr := ramp } : State).hdr ∧
    DimsFit (s32 (sized 5 2 0).width) (s32 (sized 5 2 0).height) := by decide

/-- The largest reading that is not negative, and the smallest that is. -/
theorem witness_SignedReadingIsTwosComplement :
    (0x7FFFFFFF : Word).toNat < 2 ^ 31 ∧ 2 ^ 31 ≤ (0x80000000 : Word).toNat := by decide

end Sys2Proof.Machine
end

section
/-! SUPPORT and settlements for 00_scope.md R6 and R7: the magic number with its two wire bytes, and the signed
reading of a register. -/

namespace Sys2Proof.Machine

/-- The dimensions the checks 6 to 9 accept, in the terms of the claims (40_stride.md R104). -/
theorem dimsCheck_eq_none_iff_dimsFit (w h : Int) : dimsCheck w h = none ↔ DimsFit w h := by
  rw [dimsCheck_eq_none_iff]
  refine and_congr_right fun hw => and_congr_right fun hh => ?_
  rw [fileSize_of_nonneg hw hh, rowBytes_of_nonneg hw, Config.maxWord]
  omega

/-- ENCODE where the dimensions fit: BUILD's fields and geometry, packed over the header buffer
(41_header_serialize.md R120, R122, R123). -/
theorem exec_encode_of_dimsFit {s : State} (h : DimsFit (s32 s.width) (s32 s.height)) :
    ∃ F t, F = Fields.ofFun (buildValue s.width s.height (stride (s32 s.width).toNat) (s32 s.height).toNat) ∧
      exec .encode s = .next t ∧ t.fields = F ∧ t.hdr = packFields F s.hdr := by
  have hfit := (dimsCheck_eq_none_iff_dimsFit _ _).mpr h
  rcases buildBody_cases s with ⟨-, hb⟩ | ⟨c, hc, -⟩
  · refine ⟨_, _, rfl, by rw [exec_encode, encodeBody, hb]; rfl, ?_, ?_⟩ <;> simp [succeed_eq, packBody]
  · simp [hfit] at hc

/-- The magic BUILD writes (41_header_serialize.md R121). -/
theorem read_magic_buildValue (width height : Word) (s h : Nat) :
    (Fields.ofFun (buildValue width height s h)).read .magic = 0x4D42#32 := by
  rw [read_ofFun, buildValue]
  decide

/-- The two wire bytes of the magic that PACK writes (41_header_serialize.md R122). -/
theorem read_packFields_magic {F : Fields} (hF : F.read .magic = 0x4D42#32) {m : Memory} (hm : Memory.wf m) :
    Memory.read (packFields F m) 0 = 0x42#8 ∧ Memory.read (packFields F m) 1 = 0x4D#8 := by
  have byte {t : Nat} (ht : t < 2) : Memory.read (packFields F m) t = BitVec.ofNat 8 (0x4D42 / 256 ^ t) := by
    have h := hdrByte_packFields F hm (f := .magic) (t := t) ht
    rwa [Field.wireOffset, Nat.zero_add, hdrByte_of_lt (by omega), hF] at h
  exact ⟨byte (by decide), byte (by decide)⟩

/-- UNPACK reads the magic number exactly from the bytes `'B'` and `'M'` (30_encoding.md R83). -/
theorem magic_unpackFields_eq_iff (m : Memory) :
    u32 ((unpackFields m).read .magic) = kMagic ↔ Memory.read m 0 = 0x42#8 ∧ Memory.read m 1 = 0x4D#8 := by
  have hnum : readLE m 0 2 = (Memory.read m 0).toNat + 256 * (Memory.read m 1).toNat := by
    simp only [readLE, Nat.zero_add, Nat.mul_zero, Nat.add_zero, hdrByte_of_lt (show 0 < 54 by decide),
      hdrByte_of_lt (show 1 < 54 by decide)]
  have h0 := (Memory.read m 0).isLt
  rw [read_unpackFields, u32_raw_unpackFields, Field.wireOffset, Field.wireSize, hnum, kMagic, kMagic0, kMagic1,
    ← BitVec.toNat_inj, ← BitVec.toNat_inj, BitVec.toNat_ofNat, BitVec.toNat_ofNat]
  omega

/-- Only the check of the magic has the result code 1 (42_header_deserialize.md R141). -/
theorem checkCode_eq_one_iff (n : Nat) : checkCode n = 1 ↔ n = 1 := by
  unfold checkCode
  split_ifs with h1 h2 <;> simp [h1]

/-- A failing header check has the code `INVALID_FORMAT` exactly when it is the check of the magic
(42_header_deserialize.md R141). -/
theorem code_eq_invalidFormat_iff {x : Bool} {F : Fields} {e : Failure} (he : validateChecks x F = some e) :
    e.code = .invalidFormat ↔ u32 (F.read .magic) ≠ kMagic := by
  have h := validateChecks_spec x F
  rw [he] at h
  obtain ⟨⟨hfail, hbefore⟩, hcode, -⟩ := h
  have hfirst : e.check.num = 1 ↔ CheckFails x F 1 := by
    constructor
    · intro h1
      rwa [h1] at hfail
    · intro h1
      have := checkFails_range hfail
      have hle : ¬ 1 < e.check.num := fun hlt => hbefore 1 hlt h1
      omega
  calc e.code = .invalidFormat ↔ e.code.num = 1 := ⟨fun h => by rw [h]; rfl, fun h => Code.num_inj h⟩
    _ ↔ e.check.num = 1 := by rw [hcode, checkCode_eq_one_iff]
    _ ↔ CheckFails x F 1 := hfirst

/-- The magic of a header that passes the checks (42_header_deserialize.md R141). -/
theorem magic_of_validateChecks_eq_none {x : Bool} {F : Fields} (h : validateChecks x F = none) :
    u32 (F.read .magic) = kMagic := by
  have hpass := validateChecks_spec x F
  rw [h] at hpass
  exact not_not.mp (hpass 1)

/-- Which code a `STATUS` word reports (60_exceptions.md R181). -/
theorem err_statusWord_eq_iff (c d : Code) (k : Check) (o : Byte) :
    (statusWord c k o).extractLsb' 0 4 = BitVec.ofNat 4 d.num ↔ c = d := by
  have h := statusErr_statusWord c k o
  rw [statusErr] at h
  rw [← BitVec.toNat_inj, h, BitVec.toNat_ofNat, Nat.mod_eq_of_lt d.num_lt]
  exact ⟨Code.num_inj, congrArg Code.num⟩

/-- DECODE's report on the magic: `INVALID_FORMAT` exactly when the unpacked magic is another number
(42_header_deserialize.md R141, R143). -/
theorem exec_decode_invalidFormat_iff (s : State) : ∃ t, exec .decode s = .next t ∧
    (t.status.extractLsb' 0 4 = 1#4 ↔ u32 ((unpackFields s.hdr).read .magic) ≠ kMagic) := by
  rcases validateBody_cases (unpackBody s) with ⟨hc, hb⟩ | ⟨e, hc, hb⟩
  · refine ⟨_, by rw [exec_decode, hb]; rfl, ?_⟩
    have hmagic : u32 ((unpackFields s.hdr).read .magic) = kMagic := magic_of_validateChecks_eq_none hc
    rw [succeed_eq, setStatus_status]
    exact (err_statusWord_eq_iff .ok .invalidFormat _ _).trans (by simp [hmagic])
  · refine ⟨_, by rw [exec_decode, hb]; rfl, ?_⟩
    rw [raiseError_eq, setStatus_status]
    exact (err_statusWord_eq_iff e.code .invalidFormat _ _).trans (code_eq_invalidFormat_iff hc)

/-- Settles O53: ENCODE packs the magic BUILD wrote, and DECODE's first check compares the number in the same two
bytes. -/
theorem magicIsTheBytesBM : Obligations.MagicIsTheBytesBM := by
  unfold Obligations.MagicIsTheBytesBM
  refine ⟨rfl, fun s hwf hfit => ?_, fun s => ?_⟩
  · obtain ⟨F, t, hF, ht, hfields, hhdr⟩ := exec_encode_of_dimsFit hfit
    have hmagic : F.read .magic = 0x4D42#32 := hF ▸ read_magic_buildValue _ _ _ _
    have hraw : F.magic = 0x4D42#32 := by rw [hF]; rfl
    exact ⟨t, ht, by rw [hfields, hraw], hhdr ▸ read_packFields_magic hmagic hwf⟩
  · obtain ⟨t, ht, hstatus⟩ := exec_decode_invalidFormat_iff s
    exact ⟨t, ht, hstatus.trans (not_congr (magic_unpackFields_eq_iff s.hdr))⟩

/-- Settles O54: the sign bit is 1 exactly from `2^31` on, where its weight `2^32` is taken off. -/
theorem signedReadingIsTwosComplement : Obligations.SignedReadingIsTwosComplement := by
  unfold Obligations.SignedReadingIsTwosComplement
  intro v
  have hlt := u32_lt v
  rw [s32_eq]
  unfold u32 at hlt ⊢
  exact ⟨fun hv => by omega, fun hv => by omega⟩

end Sys2Proof.Machine
end

section
/-! SUPPORT and settlements for 10_state.md: what every command reports and writes, what it never reads, and the
invariant of every run. -/

namespace Sys2Proof.Machine

/-! ### Every command as one body and one end -/

/-- A command without its `succeed()`. -/
def bodyOf (i : Instr) (s : State) : Except Failure State :=
  match i with
  | .nop => .ok s
  | .stride => strideBody s
  | .build => buildBody s
  | .pack => .ok (packBody s)
  | .unpack => .ok (unpackBody s)
  | .validate => validateBody s
  | .encode => encodeBody s
  | .decode => validateBody (unpackBody s)
  | .sreset => .ok s.resetRegisters
  | .rowoff => rowoffBody s

/-- The state that an error of a command leaves, but for `STATUS` (60_exceptions.md R180). -/
def failedOf (i : Instr) (s : State) : State := if i = .decode then unpackBody s else s

/-- Every command is the end of its body, under its own operation code (60_exceptions.md R180). -/
theorem exec_eq_complete (i : Instr) (s : State) : exec i s = complete i.opc (failedOf i s) (bodyOf i s) := by
  cases i <;> rfl

/-! ### What a command reports -/

theorem mem_of_widthCheck {w : Int} {c : Check} (h : widthCheck w = some c) : c ∈ [Check.widthNegative, .strideRange] := by
  unfold widthCheck at h
  split_ifs at h <;> cases h <;> decide

theorem mem_of_dimsCheck {w h : Int} {c : Check} (hc : dimsCheck w h = some c) :
    c ∈ [Check.widthNegative, .heightNegative, .strideRange, .sizeRange] := by
  unfold dimsCheck at hc
  split_ifs at hc <;> cases hc <;> decide

/-- The pair of a failed header check is one VALIDATE reports (60_exceptions.md R183). -/
theorem pair_of_validateChecks {x : Bool} {F : Fields} {e : Failure} (he : validateChecks x F = some e) :
    (e.code.num, e.check.num) ∈ (statusPairs 5).erase (4, 15) := by
  have h := validateChecks_spec x F
  rw [he] at h
  obtain ⟨-, hcode, hmem, -⟩ := h
  have table : ∀ n ∈ [1, 2, 3, 4, 5, 6, 7, 8, 9, 10, 11, 12], (checkCode n, n) ∈ (statusPairs 5).erase (4, 15) := by
    decide
  exact hcode ▸ table _ hmem

theorem pair_of_validateBody {s : State} {e : Failure} (h : validateBody s = .error e) :
    (e.code.num, e.check.num) ∈ (statusPairs 5).erase (4, 15) := by
  rcases validateBody_cases s with ⟨-, hb⟩ | ⟨e', hc, hb⟩ <;> cases hb.symm.trans h
  exact pair_of_validateChecks hc

theorem pair_of_buildBody {s : State} {e : Failure} (h : buildBody s = .error e) :
    (e.code.num, e.check.num) ∈ (statusPairs 2).erase (4, 15) := by
  rcases buildBody_cases s with ⟨-, hb⟩ | ⟨c, hc, hb⟩ <;> cases hb.symm.trans h
  have table : ∀ c ∈ [Check.widthNegative, .heightNegative, .strideRange, .sizeRange],
      (3, c.num) ∈ (statusPairs 2).erase (4, 15) := by decide
  exact table c (mem_of_dimsCheck hc)

/-- A failing command carries a pair that the table of 60_exceptions.md R183 gives it. -/
theorem pair_of_bodyOf {i : Instr} {s : State} {e : Failure} (h : bodyOf i s = .error e) :
    (e.code.num, e.check.num) ∈ (statusPairs i.opc.toNat).erase (4, 15) := by
  cases i with
  | nop => cases h
  | pack => cases h
  | unpack => cases h
  | sreset => cases h
  | validate => exact pair_of_validateBody h
  | decode => exact pair_of_validateBody h
  | build => exact pair_of_buildBody h
  | encode =>
    rcases encodeBody_cases s with ⟨u, -, hb⟩ | ⟨e', hbuild, hb⟩ <;> cases hb.symm.trans h
    exact pair_of_buildBody hbuild
  | stride =>
    rcases strideBody_cases s with ⟨-, hb⟩ | ⟨c, hc, hb⟩ <;> cases hb.symm.trans h
    have table : ∀ c ∈ [Check.widthNegative, .strideRange], (3, c.num) ∈ (statusPairs 1).erase (4, 15) := by decide
    exact table c (mem_of_widthCheck hc)
  | rowoff =>
    have table : ∀ c ∈ [Check.widthNegative, .heightNegative, .strideRange, .sizeRange],
        (3, c.num) ∈ (statusPairs 9).erase (4, 15) := by decide
    rcases rowoffBody_cases s with ⟨-, -, -, hb⟩ | ⟨-, -, hb⟩ | ⟨c, hc, hb⟩ <;> cases hb.symm.trans h
    · decide
    · exact table c (mem_of_dimsCheck hc)

/-- The `STATUS` of every command: its own operation code with a pair of the table of 60_exceptions.md R183. -/
theorem exec_status {i : Instr} {s t : State} (h : exec i s = .next t) :
    ∃ c k, t.status = statusWord c k i.opc ∧ (c.num, k.num) ∈ (statusPairs i.opc.toNat).erase (4, 15) := by
  rw [exec_eq_complete] at h
  rcases complete_cases h with ⟨u, -, rfl⟩ | ⟨e, he, rfl⟩
  · exact ⟨.ok, .none, rfl, by cases i <;> decide⟩
  · exact ⟨e.code, e.check, rfl, pair_of_bodyOf he⟩

/-- The codes a command reports are those from 0 to 3; `ILLEGAL` belongs to no command (60_exceptions.md R181). -/
theorem code_le_of_pair {i : Instr} {p : Nat × Nat} (h : p ∈ (statusPairs i.opc.toNat).erase (4, 15)) : p.1 ≤ 3 := by
  have table : ∀ p ∈ (statusPairs i.opc.toNat).erase (4, 15), p.1 ≤ 3 := by cases i <;> decide
  exact table p h

/-- A word without reserved bits of `STATUS` has zeros in all of them (10_state.md R29). -/
theorem reserved_eq_zero_of_statusExisting {v : Word} (h : statusExisting v = v) : v &&& 0xFF00F0F0#32 = 0#32 := by
  rw [← h, statusExisting, BitVec.and_assoc]
  exact BitVec.and_zero

/-- Settles O27: `exec_status` names the word, and each part of it is read back. -/
theorem everyCommandReports : Obligations.EveryCommandReports := by
  unfold Obligations.EveryCommandReports
  intro i s t h
  obtain ⟨c, k, hstatus, hpair⟩ := exec_status h
  rw [hstatus]
  refine ⟨statusLastop_statusWord c k i.opc, ?_, reserved_eq_zero_of_statusExisting (statusExisting_statusWord c k _)⟩
  exact (statusErr_statusWord c k i.opc).trans_le (code_le_of_pair hpair)

/-! ### What a command writes -/

/-- Settles O30: each command's result is an update of the registers it may write. -/
theorem commandsWriteTheirRegisters : Obligations.CommandsWriteTheirRegisters := by
  unfold Obligations.CommandsWriteTheirRegisters
  intro i s t h hi
  rcases exec_cases i s t h with ⟨e, -, -, rfl⟩ | ⟨e, rfl, -, rfl⟩ | ⟨rfl, rfl⟩ | ⟨rfl, -⟩ | ⟨rfl, rfl, -⟩ |
    ⟨rfl, rfl, -⟩ | ⟨F, st, p, m, ⟨rfl, rfl⟩ | ⟨rfl, -⟩, -, -, -, rfl, -⟩ | ⟨rfl, rfl⟩ | ⟨rfl, rfl⟩ |
    ⟨F, st, p, ⟨rfl, rfl⟩ | ⟨rfl, -⟩, -, -, rfl, -⟩
  case inr.inr.inr.inl => exact absurd rfl hi
  all_goals simp

/-- Settles O34: no update a command makes is of the model's own two fields. -/
theorem commandsLeaveTheHostSide : Obligations.CommandsLeaveTheHostSide := by
  unfold Obligations.CommandsLeaveTheHostSide
  intro i s t h
  rcases exec_cases i s t h with ⟨e, -, -, rfl⟩ | ⟨e, -, -, rfl⟩ | ⟨-, rfl⟩ | ⟨-, rfl⟩ | ⟨-, rfl, -⟩ | ⟨-, rfl, -⟩ |
    ⟨F, st, p, m, -, -, -, -, rfl, -⟩ | ⟨-, rfl⟩ | ⟨-, rfl⟩ | ⟨F, st, p, -, -, -, rfl, -⟩ <;> simp

/-! ### What a command never reads

An overwriting `g` puts values `x` over some registers. Where these are registers no command reads, a command run after
the overwriting ends as it would without it, but for an overwriting by values of its own. -/

/-- `g` overwrites nothing a command reads but `CTRL.XCHK`, and an update a command makes leaves it an overwriting,
with the values the update gives it. -/
structure Unread {ι : Type} (g : ι → State → State) : Prop where
  width : ∀ x s, (g x s).width = s.width
  height : ∀ x s, (g x s).height = s.height
  row : ∀ x s, (g x s).row = s.row
  fields : ∀ x s, (g x s).fields = s.fields
  hdr : ∀ x s, (g x s).hdr = s.hdr
  setStatus : ∀ x s v, ∃ y, (g x s).setStatus v = g y (s.setStatus v)
  setSize : ∀ x s w h, ∃ y, (g x s).setSize w h = g y (s.setSize w h)
  setGeometry : ∀ x s st p, ∃ y, (g x s).setGeometry st p = g y (s.setGeometry st p)
  setRowoff : ∀ x s v, ∃ y, (g x s).setRowoff v = g y (s.setRowoff v)
  setFields : ∀ x s F, ∃ y, (g x s).setFields F = g y (s.setFields F)
  setHdr : ∀ x s m, ∃ y, (g x s).setHdr m = g y (s.setHdr m)

/-- Two bodies that end alike: with one failure, or with the second's state an overwriting of the first's. -/
def EndAlike {ι : Type} (g : ι → State → State) : Except Failure State → Except Failure State → Prop
  | .ok a, .ok b => ∃ y, b = g y a
  | .error d, .error e => d = e
  | _, _ => False

section
variable {ι : Type} {g : ι → State → State} (hg : Unread g) (x : ι) (s : State)
include hg

theorem unpackBody_overwritten : ∃ y, unpackBody (g x s) = g y (unpackBody s) := by
  rw [unpackBody, hg.hdr]
  exact hg.setFields x s _

theorem packBody_overwritten : ∃ y, packBody (g x s) = g y (packBody s) := by
  rw [packBody, hg.fields, hg.hdr]
  exact hg.setHdr x s _

theorem failedOf_overwritten (i : Instr) : ∃ y, failedOf i (g x s) = g y (failedOf i s) := by
  unfold failedOf
  split_ifs
  · exact unpackBody_overwritten hg x s
  · exact ⟨x, rfl⟩

theorem strideBody_endAlike : EndAlike g (strideBody s) (strideBody (g x s)) := by
  simp only [strideBody, hg.width]
  cases widthCheck (s32 s.width) with
  | none => exact hg.setGeometry x s _ _
  | some c => rfl

theorem buildBody_endAlike : EndAlike g (buildBody s) (buildBody (g x s)) := by
  simp only [buildBody, hg.width, hg.height]
  cases dimsCheck (s32 s.width) (s32 s.height) with
  | none =>
    obtain ⟨y, hy⟩ := hg.setFields x s _
    exact hy ▸ hg.setGeometry y _ _ _
  | some c => rfl

theorem encodeBody_endAlike : EndAlike g (encodeBody s) (encodeBody (g x s)) := by
  have hb := buildBody_endAlike hg x s
  rcases encodeBody_cases s with ⟨a, hs, hes⟩ | ⟨d, hs, hes⟩ <;>
    rcases encodeBody_cases (g x s) with ⟨b, hu, heu⟩ | ⟨e, hu, heu⟩ <;> rw [hs, hu] at hb <;> rw [hes, heu]
  case inl.inl =>
    obtain ⟨y, rfl⟩ := hb
    exact packBody_overwritten hg y a
  case inr.inr => exact hb
  all_goals exact hb.elim

theorem rowoffBody_endAlike : EndAlike g (rowoffBody s) (rowoffBody (g x s)) := by
  simp only [rowoffBody, hg.width, hg.height, hg.row]
  cases dimsCheck (s32 s.width) (s32 s.height) with
  | none =>
    dsimp only
    split_ifs
    · rfl
    · exact hg.setRowoff x s _
  | some c => rfl

theorem validateBody_endAlike (hx : (g x s).xchk = s.xchk) : EndAlike g (validateBody s) (validateBody (g x s)) := by
  simp only [validateBody, hg.fields, hx]
  cases validateChecks s.xchk s.fields with
  | none =>
    obtain ⟨y, hy⟩ := hg.setSize x s _ _
    exact hy ▸ hg.setGeometry y _ _ _
  | some e => rfl

theorem bodyOf_endAlike (i : Instr) (hx : (g x s).xchk = s.xchk ∨ i ∉ [Instr.validate, .decode])
    (hreset : i = .sreset → ∃ y, (g x s).resetRegisters = g y s.resetRegisters) :
    EndAlike g (bodyOf i s) (bodyOf i (g x s)) := by
  cases i with
  | nop => exact ⟨x, rfl⟩
  | stride => exact strideBody_endAlike hg x s
  | build => exact buildBody_endAlike hg x s
  | pack => exact packBody_overwritten hg x s
  | unpack => exact unpackBody_overwritten hg x s
  | validate => exact validateBody_endAlike hg x s (hx.resolve_right (by simp))
  | encode => exact encodeBody_endAlike hg x s
  | decode =>
    have hx' : (unpackBody (g x s)).xchk = (unpackBody s).xchk := hx.resolve_right (by simp)
    obtain ⟨y, hy⟩ := unpackBody_overwritten hg x s
    rw [hy] at hx'
    rw [bodyOf, bodyOf, hy]
    exact validateBody_endAlike hg y _ hx'
  | sreset => exact hreset rfl
  | rowoff => exact rowoffBody_endAlike hg x s

/-- A command after an overwriting ends as without it, but for an overwriting, and with the same `STATUS`. -/
theorem exec_overwritten {i : Instr} {t : State} (ht : exec i s = .next t)
    (hx : (g x s).xchk = s.xchk ∨ i ∉ [Instr.validate, .decode])
    (hreset : i = .sreset → ∃ y, (g x s).resetRegisters = g y s.resetRegisters) :
    ∃ y, exec i (g x s) = .next (g y t) ∧ (g y t).status = t.status := by
  have ending {o : Byte} {c : Code} {k : Check} {a b : State} (hab : ∃ y, b = g y a) :
      ∃ y, b.setStatus (statusWord c k o) = g y (a.setStatus (statusWord c k o)) := by
    obtain ⟨y, rfl⟩ := hab
    exact hg.setStatus y a _
  rw [exec_eq_complete] at ht ⊢
  have hb := bodyOf_endAlike hg x s i hx hreset
  cases hs : bodyOf i s <;> cases hu : bodyOf i (g x s) <;> rw [hs, hu] at hb <;> rw [hs] at ht
  case ok.ok a b =>
    cases ht
    obtain ⟨y, hy⟩ := ending hb
    exact ⟨y, congrArg _ hy, hy ▸ rfl⟩
  case error.error d e =>
    cases ht
    cases hb
    obtain ⟨y, hy⟩ := ending (failedOf_overwritten hg x s i)
    exact ⟨y, congrArg _ hy, hy ▸ rfl⟩
  all_goals exact hb.elim

end

/-- A value put over `STATUS`. -/
def overwriteStatus (v : Word) (s : State) : State := { s with status := v }

theorem unread_status : Unread overwriteStatus where
  width _ _ := rfl
  height _ _ := rfl
  row _ _ := rfl
  fields _ _ := rfl
  hdr _ _ := rfl
  setStatus _ _ v := ⟨v, rfl⟩
  setSize v _ _ _ := ⟨v, rfl⟩
  setGeometry v _ _ _ := ⟨v, rfl⟩
  setRowoff v _ _ := ⟨v, rfl⟩
  setFields v _ _ := ⟨v, rfl⟩
  setHdr v _ _ := ⟨v, rfl⟩

/-- The one value put over `CTRL` is fixed: no command but SRESET writes `CTRL`. -/
def overwriteCtrl (c : Word) (_ : Unit) (s : State) : State := { s with ctrl := c }

theorem unread_ctrl (c : Word) : Unread (overwriteCtrl c) where
  width _ _ := rfl
  height _ _ := rfl
  row _ _ := rfl
  fields _ _ := rfl
  hdr _ _ := rfl
  setStatus _ _ _ := ⟨(), rfl⟩
  setSize _ _ _ _ := ⟨(), rfl⟩
  setGeometry _ _ _ _ := ⟨(), rfl⟩
  setRowoff _ _ _ := ⟨(), rfl⟩
  setFields _ _ _ := ⟨(), rfl⟩
  setHdr _ _ _ := ⟨(), rfl⟩

/-- Values put over `STRIDE`, `PAD` and `ROWOFF`. -/
def overwriteResults (x : Word × Word × Word) (s : State) : State :=
  { s with stride := x.1, pad := x.2.1, rowoff := x.2.2 }

theorem unread_results : Unread overwriteResults where
  width _ _ := rfl
  height _ _ := rfl
  row _ _ := rfl
  fields _ _ := rfl
  hdr _ _ := rfl
  setStatus x _ _ := ⟨x, rfl⟩
  setSize x _ _ _ := ⟨x, rfl⟩
  setGeometry x _ st p := ⟨(st, p, x.2.2), rfl⟩
  setRowoff x _ r := ⟨(x.1, x.2.1, r), rfl⟩
  setFields x _ _ := ⟨x, rfl⟩
  setHdr x _ _ := ⟨x, rfl⟩

/-- Settles O31: the two ends differ in `STATUS` at most, and that is the same word. -/
theorem statusIsNeverRead : Obligations.StatusIsNeverRead := by
  unfold Obligations.StatusIsNeverRead
  intro i s v
  obtain ⟨t, ht⟩ := exec_next i s
  obtain ⟨w, hu, hw⟩ := exec_overwritten unread_status v s ht (.inl rfl) (fun _ => ⟨0, rfl⟩)
  have hsame : overwriteStatus w t = t := by cases hw; rfl
  exact hu.trans (hsame ▸ ht.symm)

/-- Settles O32: but for its `XCHK`, no operation of a command reads `CTRL`. -/
theorem onlyXchkOfCtrlIsRead : Obligations.OnlyXchkOfCtrlIsRead := by
  unfold Obligations.OnlyXchkOfCtrlIsRead
  intro i s t c ht hi hc
  have hx : State.xchk { s with ctrl := c } = s.xchk ∨ i ∉ [Instr.validate, .decode] := by
    rwa [xchk_eq, xchk_eq]
  obtain ⟨_, hu, -⟩ := exec_overwritten (unread_ctrl c) () s ht hx (fun h => absurd h hi)
  exact hu

/-- A geometry command that succeeds leaves the `STRIDE` and `PAD` of the `WIDTH` it leaves
(10_state.md R24, R25). -/
theorem geometry_of_success {i : Instr} {s t : State} (h : exec i s = .next t)
    (hi : i ∈ [Instr.stride, .build, .encode, .validate, .decode]) (herr : t.status.extractLsb' 0 4 = 0#4) :
    t.stride = bits32 (stride (s32 t.width).toNat) ∧ t.pad = bits32 (pad (s32 t.width).toNat) := by
  rcases exec_cases i s t h with ⟨e, -, he, rfl⟩ | ⟨e, -, he, rfl⟩ | ⟨rfl, -⟩ | ⟨rfl, -⟩ | ⟨-, rfl, -⟩ | ⟨rfl, -⟩ |
    ⟨F, st, p, m, -, -, rfl, rfl, rfl, -⟩ | ⟨rfl, -⟩ | ⟨rfl, -⟩ | ⟨F, st, p, -, rfl, rfl, rfl, -⟩
  · exact absurd herr ((err_ne_zero_iff _ _ _).mpr he)
  · exact absurd herr ((err_ne_zero_iff _ _ _).mpr he)
  · simp at hi
  · simp at hi
  · exact ⟨rfl, rfl⟩
  · simp at hi
  · exact ⟨rfl, rfl⟩
  · simp at hi
  · simp at hi
  · exact ⟨rfl, rfl⟩

/-- A ROWOFF that succeeds leaves the offset of the row that `ROW` names (10_state.md R27). -/
theorem rowoff_of_success {s t : State} (h : exec .rowoff s = .next t) (herr : t.status.extractLsb' 0 4 = 0#4) :
    t.rowoff = bits32 (kHdrLen + (s32 t.height - 1 - s32 t.row).toNat * stride (s32 t.width).toNat) := by
  rw [exec_rowoff] at h
  rcases rowoffBody_cases s with ⟨-, -, -, hb⟩ | ⟨-, -, hb⟩ | ⟨c, -, hb⟩ <;> rw [hb] at h <;> cases h
  · rfl
  all_goals exact absurd herr ((err_ne_zero_iff .range _ _).mpr (by decide))

/-- Settles O33: the ends are alike but for the three results, and a success takes its results from registers that
are alike. -/
theorem staleResultsAreNeverRead : Obligations.StaleResultsAreNeverRead := by
  unfold Obligations.StaleResultsAreNeverRead
  intro i s t st p r ht
  obtain ⟨x, hu, -⟩ :=
    exec_overwritten unread_results (st, p, r) s ht (.inl rfl) (fun _ => ⟨(0, 0, 0), rfl⟩)
  refine ⟨_, hu, rfl, fun hi herr => ?_, ?_⟩
  · obtain ⟨h1, h2⟩ := geometry_of_success ht hi herr
    obtain ⟨h1', h2'⟩ := geometry_of_success hu hi herr
    exact ⟨h1'.trans h1.symm, h2'.trans h2.symm⟩
  · rintro rfl herr
    exact (rowoff_of_success hu herr).trans (rowoff_of_success ht herr).symm

/-! ### Reset and the idle step -/

/-- Settles O45. -/
theorem idleStepKeepsTheState : Obligations.IdleStepKeepsTheState := by
  unfold Obligations.IdleStepKeepsTheState
  intro s h
  rw [step, h]

@[simp] theorem raw_reset (f : Field) : Fields.reset.raw f = 0 := by cases f <;> rfl

/-- Settles O48: each register by its value in `State.reset`, a header byte by what an unlisted position reads as. -/
theorem resetState : Obligations.ResetState := by
  unfold Obligations.ResetState
  exact ⟨rfl, rfl, rfl, rfl, rfl, rfl, rfl, rfl, raw_reset, Memory.read_nil⟩

/-- Settles O49: a hardware reset and SRESET both go through `State.resetRegisters`. -/
theorem hardwareResetClearsEverything : Obligations.HardwareResetClearsEverything := by
  unfold Obligations.HardwareResetClearsEverything
  intro s rest h
  refine ⟨(s.setInputs rest).resetRegisters, by rw [step, h]; rfl, rfl, rfl, rfl, rfl, rfl, rfl, rfl, rfl, raw_reset,
    Memory.read_nil, s.resetRegisters.setStatus 0x00080000#32, rfl, rfl⟩

/-! ### The invariant -/

/-- The registers at their reset values meet the invariant, whatever is pending or answered. -/
theorem inv_resetRegisters (s : State) : s.resetRegisters.Inv where
  hdr := Memory.wf_nil
  ctrl := (by decide : (0 : Word).toNat < 2)
  statusBits := (by decide : statusExisting 0 = 0)
  statusPair :=
    (by decide : ((statusErr 0).toNat, (statusChk 0).toNat) ∈ statusPairs (statusLastop 0).toNat)
  fields f := by cases f <;> rfl
  geometry := ⟨0, by decide, by decide, rfl, rfl⟩
  rowoff := .inl rfl

/-- Settles O50. -/
theorem resetMeetsInvariant : Obligations.ResetMeetsInvariant := inv_resetRegisters State.reset

/-- The stored field registers after a write of one (10_state.md R31). -/
theorem raw_write (F : Fields) (f g : Field) (v : Word) :
    (F.write f v).raw g = if f = g then f.existing v else F.raw g := by
  cases f <;> cases g <;> simp [Fields.write, Fields.raw]

/-- A write of a field register keeps the bits that do not exist at zero (10_state.md R31). -/
theorem raw_eq_read_write {F : Fields} (hF : ∀ f, F.raw f = F.read f) (f : Field) (v : Word) (g : Field) :
    (F.write f v).raw g = (F.write f v).read g := by
  rw [raw_write, read_write, hF g]

/-- A host's write keeps the invariant, whatever register it reaches (20_memory.md R54, R55). -/
theorem inv_storeReg {s : State} (h : s.Inv) (r : Reg) (v : Word) : (storeReg s r v).Inv := by
  cases r with
  | ctrl => exact { h with ctrl := (u32_low1 v).trans_lt (Nat.mod_lt _ (by decide)) }
  | width => exact { h with }
  | height => exact { h with }
  | row => exact { h with }
  | cmd => exact h
  | status => exact h
  | stride => exact h
  | pad => exact h
  | rowoff => exact h
  | field f => exact inv_setFields h (raw_eq_read_write h.fields f v)
  | hdrw k => exact inv_setHdr h (wf_setHdrWord h.hdr k v)

/-- `ROWOFF` as the offset of a row of an image that fits (40_stride.md R106). -/
theorem inv_setRowoff {s : State} (h : s.Inv) {w ht r : Int} (hfit : DimsFit w ht) (h0 : 0 ≤ r) (h1 : r < ht) :
    (s.setRowoff (bits32 (kHdrLen + (ht - 1 - r).toNat * stride w.toNat))).Inv := by
  obtain ⟨hw, -, -, hsize⟩ := hfit
  have hle : (ht - 1 - r) * rowBytes w ≤ rowBytes w * ht := by
    rw [mul_comm, rowBytes_of_nonneg hw]
    exact mul_le_mul_of_nonneg_left (by omega) (by omega)
  refine { h with rowoff := .inr ⟨w, ht - 1 - r, hw, by omega, by omega, ?_⟩ }
  rw [setRowoff_rowoff, bits32_eq_ofInt, rowBytes_of_nonneg hw]
  push_cast
  rw [Int.toNat_of_nonneg (by omega : 0 ≤ ht - 1 - r)]
  rfl

/-- The width of a header that passes is not negative and its row length fits (42_header_deserialize.md R141). -/
theorem width_of_validateChecks {x : Bool} {F : Fields} (h : validateChecks x F = none) :
    0 ≤ s32 (F.read .width) ∧ stride (s32 (F.read .width)).toNat ≤ Config.maxWord := by
  have hpass := validateChecks_spec x F
  rw [h] at hpass
  have h0 : 0 ≤ s32 (F.read .width) := not_lt.mp (hpass 6)
  have h1 : rowBytes (s32 (F.read .width)) ≤ 4294967295 := not_lt.mp (hpass 8)
  rw [rowBytes_of_nonneg h0] at h1
  exact ⟨h0, by exact_mod_cast h1⟩

/-- A command keeps the invariant in all but `STATUS`: it comes to a state that meets it and writes `STATUS` there. -/
theorem exec_inv_but_status {i : Instr} {s t : State} (hs : s.Inv) (h : exec i s = .next t) :
    ∃ (u : State) (v : Word), u.Inv ∧ t = u.setStatus v := by
  have hunpack : (s.setFields (unpackFields s.hdr)).Inv :=
    inv_setFields hs (fun f => (read_unpackFields s.hdr f).symm)
  rcases exec_cases i s t h with ⟨e, -, -, rfl⟩ | ⟨e, -, -, rfl⟩ | ⟨-, rfl⟩ | ⟨-, rfl⟩ | ⟨-, rfl, hw⟩ |
    ⟨-, rfl, hdims, h0, h1⟩ | ⟨F, st, p, m, hm, hF, rfl, rfl, rfl, hdims⟩ | ⟨-, rfl⟩ | ⟨-, rfl⟩ |
    ⟨F, st, p, hF, rfl, rfl, rfl, hc⟩
  · exact ⟨_, _, hs, rfl⟩
  · exact ⟨_, _, hunpack, rfl⟩
  · exact ⟨_, _, hs, rfl⟩
  · exact ⟨_, _, inv_resetRegisters s, rfl⟩
  · obtain ⟨h0, h1⟩ := (widthCheck_eq_none_iff _).mp hw
    exact ⟨_, _, inv_setGeometry hs h0 h1, rfl⟩
  · exact ⟨_, _, inv_setRowoff hs ((dimsCheck_eq_none_iff_dimsFit _ _).mp hdims) h0 h1, rfl⟩
  · obtain ⟨h0, -, h1, -⟩ := (dimsCheck_eq_none_iff _ _).mp hdims
    have hfields : ∀ f, F.raw f = F.read f := fun f => by rw [hF, raw_ofFun, read_ofFun]
    have hwf : Memory.wf m := by
      rcases hm with ⟨-, hm⟩ | ⟨-, hm⟩ <;> rw [hm]
      · exact hs.hdr
      · exact wf_packFields F hs.hdr
    exact ⟨_, _, inv_setHdr (inv_setGeometry (inv_setFields hs hfields) h0 h1) hwf, rfl⟩
  · exact ⟨_, _, inv_setHdr hs (wf_packFields s.fields hs.hdr), rfl⟩
  · exact ⟨_, _, hunpack, rfl⟩
  · obtain ⟨h0, h1⟩ := width_of_validateChecks hc
    have hfields : (s.setFields F).Inv := by
      rcases hF with ⟨-, rfl⟩ | ⟨-, rfl⟩
      · exact hs
      · exact hunpack
    exact ⟨_, _, inv_setGeometry (inv_setSize hfields _ _) h0 h1, rfl⟩

/-- The invariant under a `STATUS` word made of a pair its `LASTOP` can report (60_exceptions.md R183). -/
theorem inv_setStatus_statusWord {s : State} (h : s.Inv) {c : Code} {k : Check} {o : Byte}
    (hpair : (c.num, k.num) ∈ statusPairs o.toNat) : (s.setStatus (statusWord c k o)).Inv := by
  refine inv_setStatus h (statusExisting_statusWord c k o) ?_
  rwa [statusErr_statusWord, statusChk_statusWord, statusLastop_statusWord]

/-- Every command keeps the invariant. -/
theorem exec_keeps_inv {i : Instr} {s t : State} (hs : s.Inv) (h : exec i s = .next t) : t.Inv := by
  obtain ⟨u, v, hu, rfl⟩ := exec_inv_but_status hs h
  obtain ⟨c, k, hstatus, hpair⟩ := exec_status h
  rw [setStatus_status] at hstatus
  rw [hstatus]
  exact inv_setStatus_statusWord hu (List.mem_of_mem_erase hpair)

/-- So does every word written to `CMD`: one that selects no command reports check 15 (43_control.md R172). -/
theorem runCommand_keeps_inv {c : Word} {s t : State} (hs : s.Inv) (h : runCommand c s = .next t) : t.Inv := by
  unfold runCommand at h
  cases hd : decode c with
  | ok i =>
    rw [hd] at h
    exact exec_keeps_inv hs h
  | error e =>
    rw [hd] at h
    cases h
    exact inv_setStatus_statusWord hs (List.mem_cons_self ..)

/-- Settles O51: by the kind of input the step takes. -/
theorem stepKeepsInvariant : Obligations.StepKeepsInvariant := by
  unfold Obligations.StepKeepsInvariant
  intro s t hs h
  have pending (l : List Input) (x : Response) : ((s.setInputs l).respond x).Inv := inv_respond (inv_setInputs hs l) x
  rcases step_cases h with ⟨-, rfl⟩ | ⟨rest, -, rfl⟩ | ⟨a, n, rest, r, -, -, rfl⟩ | ⟨a, n, rest, -, -, rfl⟩ |
    ⟨a, n, v, rest, -, -, rfl⟩ | ⟨a, n, v, rest, r, -, -, -, rfl⟩ | ⟨a, n, v, rest, -, -, hrun⟩
  · exact hs
  · exact inv_resetRegisters _
  · exact pending _ _
  · exact pending _ _
  · exact pending _ _
  · exact inv_storeReg (pending _ _) r v
  · exact runCommand_keeps_inv (pending _ _) hrun

end Sys2Proof.Machine
end

section
/-! SUPPORT and settlements for 20_memory.md: where the window sits, the register map, what an access that is not
accepted does, what an accepted read returns and an accepted write stores, and the order of accesses. -/

namespace Sys2Proof.Machine

/-! ### The window and the register map -/

theorem windowOffset_add {base a : Nat} (h : a < Config.windowBytes) : windowOffset base (base + a) = some a := by
  rw [windowOffset, if_pos (by omega), Nat.add_sub_cancel_left]

theorem windowOffset_eq_none {base addr : Nat} (h : addr < base ∨ base + Config.windowBytes ≤ addr) :
    windowOffset base addr = none := if_neg (by omega)

/-- Settles O46: a request is routed by the window offset of its address. -/
theorem windowSitsAtBase : Obligations.WindowSitsAtBase := by
  unfold Obligations.WindowSitsAtBase
  intro base a n v
  refine ⟨fun h => ?_, fun h => ?_⟩
  · have hin : windowOffset base (base + a) = some a := windowOffset_add (Nat.lt_succ_of_le h)
    simp only [HostRequest.toInput, hin, Option.map_some, and_self]
  · have hout : windowOffset base a = none := windowOffset_eq_none (by simp only [Config.windowBytes]; omega)
    simp only [HostRequest.toInput, hout, Option.map_none, and_self]

/-- Two registers never share an offset (20_memory.md R51): the map read backwards gives one register. -/
theorem offset_injective {q r : Reg} (h : q.offset = r.offset) : q = r := by
  have hmap : some q = some r := by rw [← regAt_offset q, h, regAt_offset r]
  exact Option.some.inj hmap

/-- An accepted access is at the offset of the register it reaches, and is one the claims call accepted
(20_memory.md R52). -/
theorem offset_of_accepted {a n : Nat} {r : Reg} (h : accepted a n = some r) : Accepted a n ∧ r.offset = a := by
  obtain ⟨hn, h4, hr⟩ := accepted_eq_some_iff.mp h
  obtain ⟨hmapped, hoff⟩ := offset_of_regAt h4 hr
  exact ⟨⟨hn, h4, hmapped⟩, hoff⟩

/-- Every aligned mapped offset is that of a register (20_memory.md R51): of one of the nine from `CTRL` on, of a field
register, or of a window word. -/
theorem exists_offset_eq {a : Nat} (h4 : a % 4 = 0) (h : Mapped a) : ∃ r : Reg, r.offset = a := by
  rcases h with h | ⟨hlo, hhi⟩ | ⟨hlo, hhi⟩
  · have control : ∀ q : Fin 9, ∃ r ∈ [Reg.ctrl, .cmd, .status, .width, .height, .stride, .pad, .row, .rowoff],
        r.offset = 4 * q.val := by decide
    obtain ⟨r, -, hr⟩ := control ⟨a / 4, by omega⟩
    exact ⟨r, hr.trans (Nat.mul_div_cancel' (Nat.dvd_of_mod_eq_zero h4))⟩
  · have field : ∀ q : Fin 15, ∃ f ∈ Field.all, f.index = q.val := by decide
    obtain ⟨f, -, hf⟩ := field ⟨(a - 0x40) / 4, by omega⟩
    exact ⟨.field f, by rw [Reg.offset, hf]; dsimp only; omega⟩
  · exact ⟨.hdrw ⟨(a - 0x80) / 4, by omega⟩, by rw [Reg.offset]; dsimp only; omega⟩

/-- Settles O37: the offsets by the map's own equations, and the map read both ways. -/
theorem registerMapIsOneToOne : Obligations.RegisterMapIsOneToOne := by
  unfold Obligations.RegisterMapIsOneToOne
  refine ⟨rfl, rfl, fun _ => rfl, fun r => ?_, fun _ => exists_offset_eq, fun _ _ => offset_injective⟩
  obtain ⟨⟨-, h4, hmapped⟩, -⟩ := offset_of_accepted (accepted_offset r)
  exact ⟨h4, hmapped⟩

/-! ### Accesses that are not accepted -/

theorem accepted_eq_none {a n : Nat} (h : ¬Accepted a n) : accepted a n = none := by
  cases ha : accepted a n with
  | none => rfl
  | some r => exact absurd (offset_of_accepted ha).1 h

/-- A step whose read is not accepted (20_memory.md R53). -/
theorem step_read_refused {s : State} {a n : Nat} {rest : List Input} (h : s.inputs = .read a n :: rest)
    (ha : accepted a n = none) : step s = .next ((s.setInputs rest).respond .busErr) := by
  rw [step, h]
  simp only [perform, memRead, ha]

/-- A step whose write is not accepted (20_memory.md R53). -/
theorem step_write_refused {s : State} {a n : Nat} {v : Word} {rest : List Input} (h : s.inputs = .write a n v :: rest)
    (ha : accepted a n = none) : step s = .next ((s.setInputs rest).respond .busErr) := by
  rw [step, h]
  simp only [perform, memWrite, ha]

/-- Settles O36: the access reaches no register. -/
theorem refusedAccessChangesNothing : Obligations.RefusedAccessChangesNothing := by
  unfold Obligations.RefusedAccessChangesNothing
  intro s a n rest h
  have hnone := accepted_eq_none h
  exact ⟨fun hs => step_read_refused hs hnone, fun v hs => step_write_refused hs hnone⟩

/-! ### What an accepted read returns -/

/-- The bits of `STATUS` that exist, one by one (10_state.md R29). -/
theorem getLsbD_statusExisting (v : Word) (b : Nat) : (statusExisting v).getLsbD b =
    (decide (b < 4 ∨ (8 ≤ b ∧ b < 12) ∨ (16 ≤ b ∧ b < 24)) && v.getLsbD b) := by
  have mask : ∀ i : Fin 32, (0x00FF0F0F : Word).getLsbD i.val =
      decide (i.val < 4 ∨ (8 ≤ i.val ∧ i.val < 12) ∨ (16 ≤ i.val ∧ i.val < 24)) := by decide
  rw [statusExisting, BitVec.getLsbD_and, Bool.and_comm]
  by_cases hb : b < 32
  · rw [mask ⟨b, hb⟩]
  · rw [BitVec.getLsbD_of_ge v b (by omega), Bool.and_false, Bool.and_false]

/-- Settles O38: the value is `readValue`, register by register. -/
theorem readReturnsTheRegister : Obligations.ReadReturnsTheRegister := by
  unfold Obligations.ReadReturnsTheRegister
  intro s r rest h
  refine ⟨readValue s r, step_read s r rest h, ?_⟩
  cases r with
  | ctrl => exact u32_low1 s.ctrl
  | status => exact getLsbD_statusExisting s.status
  | field f => exact u32_existing f (s.fields.raw f)
  | hdrw k => exact fun t ht => byte_of_hdrWord s.hdr k.val ht
  | _ => rfl

/-! ### What an accepted write stores -/

/-- The bit of `CTRL` that exists, as arithmetic (10_state.md R28). -/
theorem low1_eq_ofNat (v : Word) : low1 v = BitVec.ofNat 32 (v.toNat % 2) := by
  have hbits : low1 v = bits32 (u32 v % 2) := by rw [← u32_low1, bits32_u32]
  exact hbits

/-- Settles O39: a write outside `CMD` is a store, register by register. -/
theorem writeStoresTheRegister : Obligations.WriteStoresTheRegister := by
  unfold Obligations.WriteStoresTheRegister
  intro s r v rest h
  have hstore := step_write s r v rest h
  cases r with
  | cmd => trivial
  | hdrw k => trivial
  | ctrl =>
    rw [← low1_eq_ofNat]
    exact hstore nofun
  | field f =>
    refine ⟨s.fields.write f v, hstore nofun, ?_, fun g hg => ?_⟩
    · rw [raw_write, if_pos rfl]
      exact u32_existing f v
    · rw [raw_write, if_neg hg.symm]
  | _ => exact hstore nofun

/-- A listed byte after a write of a window word (20_memory.md R55). -/
theorem read_setHdrWord {m : Memory} (hm : Memory.wf m) (k : Nat) (v : Word) (a : Nat) :
    Memory.read (setHdrWord m k v) a =
      if 4 * k ≤ a ∧ a < 4 * k + 4 ∧ a < 54 then v.extractLsb' (8 * (a - 4 * k)) 8 else Memory.read m a := by
  by_cases ha : a < 54
  · rw [← hdrByte_of_lt ha, hdrByte_setHdrWord hm, byte_eq_extractLsb', hdrByte_of_lt ha]
    rfl
  · rw [if_neg (by omega), read_of_ge hm (by omega), read_of_ge (wf_setHdrWord hm k v) (by omega)]

/-- Settles O40: the window word's four bytes as they read after the store. -/
theorem windowWriteStoresBytes : Obligations.WindowWriteStoresBytes := by
  unfold Obligations.WindowWriteStoresBytes
  intro s k v rest hm h
  refine ⟨setHdrWord s.hdr k.val v, step_write s (.hdrw k) v rest h nofun, fun t ht hlt => ?_, fun a ha => ?_⟩
  · rw [read_setHdrWord hm, if_pos (by omega), Nat.add_sub_cancel_left]
  · rw [read_setHdrWord hm, if_neg ha]

/-! ### Repeated accesses -/

/-- What the bus answers to a read (20_memory.md R52). -/
def readAnswer (s : State) (a n : Nat) : Response :=
  match accepted a n with
  | some r => .data (readValue s r)
  | none => .busErr

/-- A step that reads, accepted or not: it answers and changes nothing else. -/
theorem step_read_eq {s : State} {a n : Nat} {rest : List Input} (h : s.inputs = .read a n :: rest) :
    step s = .next ((s.setInputs rest).respond (readAnswer s a n)) := by
  unfold readAnswer
  cases ha : accepted a n with
  | none => exact step_read_refused h ha
  | some r =>
    obtain ⟨⟨rfl, -, -⟩, rfl⟩ := offset_of_accepted ha
    exact step_read s r rest h

/-- An answer does not see the model's own fields. -/
theorem readAnswer_host (s : State) (a n : Nat) (l : List Input) (x : Response) :
    readAnswer ((s.setInputs l).respond x) a n = readAnswer s a n := by
  unfold readAnswer
  cases accepted a n with
  | none => rfl
  | some r => exact congrArg Response.data (readValue_host s r l (x :: s.responses))

/-- Writing a field register twice is writing it once (20_memory.md R57). -/
theorem fields_write_write (F : Fields) (f : Field) (v : Word) : (F.write f v).write f v = F.write f v := by
  refine fields_ext fun g => ?_
  rw [raw_write]
  split_ifs with hg
  · rw [raw_write, if_pos hg]
  · rfl

/-- Storing a register twice is storing it once (20_memory.md R57). -/
theorem storeReg_storeReg {s : State} (hm : Memory.wf s.hdr) (r : Reg) (v : Word) :
    storeReg (storeReg s r v) r v = storeReg s r v := by
  cases r with
  | field f => exact congrArg s.setFields (fields_write_write s.fields f v)
  | hdrw k => exact congrArg s.setHdr (setHdrWord_setHdrWord hm k.val v)
  | _ => rfl

/-- Two equal writes of a register other than `CMD` in a row. -/
theorem step_write_write {s t : State} {r : Reg} {v : Word} {rest : List Input} (hm : Memory.wf s.hdr) (hr : r ≠ .cmd)
    (h : s.inputs = .write r.offset 4 v :: .write r.offset 4 v :: rest) (ht : step s = .next t) :
    t.responses = .ok :: s.responses ∧ step t = .next ((t.setInputs rest).respond .ok) := by
  obtain rfl := Host.Outcome.next.inj ((step_write s r v _ h hr).symm.trans ht)
  refine ⟨storeReg_responses _ r v, ?_⟩
  rw [step_write _ r v rest (storeReg_inputs _ r v) hr, storeReg_respond, storeReg_setInputs,
    storeReg_storeReg]
  exact hm

/-- Settles O41: a read only answers, and a store made twice is one store. -/
theorem readsArePureAndWritesIdempotent : Obligations.ReadsArePureAndWritesIdempotent := by
  unfold Obligations.ReadsArePureAndWritesIdempotent
  refine ⟨fun s a n rest h => ?_, fun s t a n v rest hm ha h ht => ?_⟩
  · refine ⟨_, readAnswer s a n, step_read_eq h, ?_⟩
    rw [step_read_eq (rest := rest) rfl, readAnswer_host]
    rfl
  · cases hacc : accepted a n with
    | none =>
      obtain rfl := Host.Outcome.next.inj ((step_write_refused h hacc).symm.trans ht)
      exact ⟨.busErr, rfl, step_write_refused (v := v) (rest := rest) rfl hacc⟩
    | some r =>
      obtain ⟨⟨rfl, -, -⟩, rfl⟩ := offset_of_accepted hacc
      have hcmd : r ≠ .cmd := fun hr => ha (congrArg Reg.offset hr)
      obtain ⟨hresp, hstep⟩ := step_write_write hm hcmd h ht
      exact ⟨.ok, hresp, by rw [hstep, State.respond, setInputs_responses, hresp]; rfl⟩

/-! ### The order of accesses -/

/-- Running a command word leaves the model's own fields (log entries 1 and 2). -/
theorem runCommand_host {c : Word} {s t : State} (h : runCommand c s = .next t) :
    t.inputs = s.inputs ∧ t.responses = s.responses := by
  unfold runCommand at h
  cases hd : decode c with
  | ok i =>
    rw [hd] at h
    exact commandsLeaveTheHostSide i s t h
  | error e =>
    rw [hd] at h
    cases h
    exact ⟨setStatus_inputs _ _, setStatus_responses _ _⟩

/-- Settles O43: by the kind of input the step takes. -/
theorem accessesTakeEffectInOrder : Obligations.AccessesTakeEffectInOrder := by
  unfold Obligations.AccessesTakeEffectInOrder
  intro s t i rest hs h
  rcases step_cases h with ⟨hin, -⟩ | ⟨l, hin, rfl⟩ | ⟨a, n, l, r, hin, -, rfl⟩ | ⟨a, n, l, hin, -, rfl⟩ |
    ⟨a, n, v, l, hin, -, rfl⟩ | ⟨a, n, v, l, r, hin, -, -, rfl⟩ | ⟨a, n, v, l, hin, -, hrun⟩ <;>
    rw [hin] at hs <;> cases hs
  · exact ⟨rfl, fun hne => absurd rfl hne, fun _ => rfl⟩
  · exact ⟨rfl, fun _ => ⟨_, rfl⟩, nofun⟩
  · exact ⟨rfl, fun _ => ⟨_, rfl⟩, nofun⟩
  · exact ⟨rfl, fun _ => ⟨_, rfl⟩, nofun⟩
  · exact ⟨by simp, fun _ => ⟨.ok, by simp⟩, nofun⟩
  · obtain ⟨hinputs, hresponses⟩ := runCommand_host hrun
    exact ⟨hinputs, fun _ => ⟨.ok, hresponses⟩, nofun⟩

end Sys2Proof.Machine
end

section
/-! SUPPORT and settlements for 30_encoding.md: the decoder by the numbers in a command word, the tiling of the header
by its fields, the step that runs a command word, and LOADHDR. -/

namespace Sys2Proof.Machine

/-! ### The decoder -/

/-- `RSV` as arithmetic on the command word (30_encoding.md R70). -/
theorem wordRsv_eq_zero_iff (c : Word) : wordRsv c = 0 ↔ c.toNat / 256 = 0 := by
  have hlt := c.isLt
  rw [← BitVec.toNat_inj, wordRsv, BitVec.extractLsb'_toNat, Nat.shiftRight_eq_div_pow]
  simp only [BitVec.ofNat_eq_ofNat, BitVec.toNat_zero]
  omega

/-- `OPC` as arithmetic on the command word (30_encoding.md R70). -/
theorem toNat_wordOpc (c : Word) : (wordOpc c).toNat = c.toNat % 256 := by
  rw [wordOpc, BitVec.extractLsb'_toNat, Nat.shiftRight_zero]

/-- An operation code selects exactly the command whose code it is (30_encoding.md R72). -/
theorem ofOpc_eq_some_iff {o : Byte} {i : Instr} : ofOpc o = some i ↔ o = i.opc := by
  constructor
  · unfold ofOpc
    split_ifs <;> rintro ⟨⟩ <;> assumption
  · rintro rfl
    cases i <;> rfl

/-- The operation codes that select no command are those above 9 (30_encoding.md R74). -/
theorem ofOpc_eq_none_iff (o : Byte) : ofOpc o = none ↔ 9 < o.toNat := by
  unfold ofOpc
  split_ifs <;> simp only [true_iff, false_iff] <;> bv_omega

/-- The decoder, by the two fields of the word (30_encoding.md R71). -/
theorem decode_cases (c : Word) :
    (c.toNat / 256 ≠ 0 ∧ decode c = .error .reservedBits) ∨
    (c.toNat / 256 = 0 ∧ 9 < c.toNat % 256 ∧ decode c = .error .unmappedOpcode) ∨
    (∃ i : Instr, c.toNat = i.opc.toNat ∧ decode c = .ok i) := by
  unfold decode
  by_cases hrsv : wordRsv c = 0
  · have hhigh := (wordRsv_eq_zero_iff c).mp hrsv
    rw [if_neg (not_not.mpr hrsv)]
    cases hopc : ofOpc (wordOpc c) with
    | none => exact .inr (.inl ⟨hhigh, toNat_wordOpc c ▸ (ofOpc_eq_none_iff _).mp hopc, rfl⟩)
    | some i =>
      have hlow : c.toNat % 256 = i.opc.toNat := by rw [← toNat_wordOpc, ofOpc_eq_some_iff.mp hopc]
      exact .inr (.inr ⟨i, by omega, rfl⟩)
  · exact .inl ⟨mt (wordRsv_eq_zero_iff c).mpr hrsv, if_pos hrsv⟩

theorem toNat_opc_le (i : Instr) : i.opc.toNat ≤ 9 := by cases i <;> decide

theorem toNat_encode (i : Instr) : (encode i).toNat = i.opc.toNat :=
  BitVec.toNat_setWidth_of_le (by decide)

theorem opc_injective {i k : Instr} (h : i.opc.toNat = k.opc.toNat) : i = k := by
  have hopc : ofOpc i.opc = some k := ofOpc_eq_some_iff.mpr (BitVec.toNat_inj.mp h)
  exact Option.some.inj ((ofOpc_eq_some_iff.mpr rfl).symm.trans hopc)

/-- A word selects a command exactly when its value is the command's operation code (30_encoding.md R71, R72). -/
theorem decode_eq_ok_iff {c : Word} {i : Instr} : decode c = .ok i ↔ c.toNat = i.opc.toNat := by
  have hi := toNat_opc_le i
  rcases decode_cases c with ⟨h, hd⟩ | ⟨-, h, hd⟩ | ⟨k, h, hd⟩ <;> rw [hd]
  · exact iff_of_false nofun (by omega)
  · exact iff_of_false nofun (by omega)
  · rw [Except.ok.injEq, h]
    exact ⟨fun hk => hk ▸ rfl, opc_injective⟩

theorem decode_eq_reservedBits_iff {c : Word} : decode c = .error .reservedBits ↔ c.toNat / 256 ≠ 0 := by
  rcases decode_cases c with ⟨h, hd⟩ | ⟨h, -, hd⟩ | ⟨k, h, hd⟩ <;> rw [hd]
  · exact iff_of_true rfl h
  · exact iff_of_false nofun (not_not.mpr h)
  · have hk := toNat_opc_le k
    exact iff_of_false nofun (by omega)

theorem decode_eq_unmappedOpcode_iff {c : Word} :
    decode c = .error .unmappedOpcode ↔ c.toNat / 256 = 0 ∧ 9 < c.toNat % 256 := by
  rcases decode_cases c with ⟨h, hd⟩ | ⟨h, h', hd⟩ | ⟨k, h, hd⟩ <;> rw [hd]
  · exact iff_of_false nofun fun hc => h hc.1
  · exact iff_of_true rfl ⟨h, h'⟩
  · have hk := toNat_opc_le k
    exact iff_of_false nofun (by omega)

/-- Settles O1: the words by the encoder's equations, and the decoder reads a command exactly from the value of its
operation code. -/
theorem decodeIsTheOpcodeMap : Obligations.DecodeIsTheOpcodeMap := by
  unfold Obligations.DecodeIsTheOpcodeMap
  refine ⟨⟨rfl, rfl, rfl, rfl, rfl, rfl, rfl, rfl, rfl, rfl⟩, fun c i => ?_⟩
  rw [decode_eq_ok_iff, ← toNat_encode, BitVec.toNat_inj]

/-- Settles O2: the two rejections by the word's fields; what neither rejects selects a command. -/
theorem illegalWordsAreRejected : Obligations.IllegalWordsAreRejected := by
  unfold Obligations.IllegalWordsAreRejected
  refine fun c => ⟨decode_eq_reservedBits_iff, decode_eq_unmappedOpcode_iff, ?_, fun hc => ?_⟩
  · rintro ⟨i, hd⟩
    exact decode_eq_ok_iff.mp hd ▸ toNat_opc_le i
  · rcases decode_cases c with ⟨h, -⟩ | ⟨-, h, -⟩ | ⟨i, -, hd⟩
    · omega
    · omega
    · exact ⟨i, hd⟩

/-- Settles O3: each word's value is the command's operation code, or one of the two kinds of illegal value. -/
theorem decodeReadsTableWords : Obligations.DecodeReadsTableWords := by
  unfold Obligations.DecodeReadsTableWords
  exact ⟨decode_eq_ok_iff.mpr rfl, decode_eq_ok_iff.mpr rfl, decode_eq_ok_iff.mpr rfl,
    decode_eq_unmappedOpcode_iff.mpr (by decide), decode_eq_reservedBits_iff.mpr (by decide)⟩

/-! ### The wire layout -/

/-- No header byte belongs to two fields (30_encoding.md R81): of two fields, one ends before the other begins. -/
theorem covers_unique {f g : Field} {j : Nat} (hf : f.covers j) (hg : g.covers j) : f = g := by
  have apart : Field.all.Pairwise (fun f g => ¬(f.covers j ∧ g.covers j)) :=
    all_pairwise.imp fun hend hboth => by omega
  have hsymm : Std.Symm (fun f g : Field => ¬(f.covers j ∧ g.covers j)) := ⟨fun _ _ h hboth => h hboth.symm⟩
  by_contra hne
  exact apart.forall (mem_all f) (mem_all g) hne ⟨hf, hg⟩

/-- Settles O4: the layout by its own equations; each byte has a field, and no other. -/
theorem fieldsTileTheHeader : Obligations.FieldsTileTheHeader := by
  unfold Obligations.FieldsTileTheHeader
  refine ⟨rfl, fun j hj => ?_, wire_end⟩
  obtain ⟨f, hf⟩ := exists_covers hj
  exact ⟨f, hf, fun g hg => covers_unique hg hf⟩

/-! ### The step that runs a command word -/

/-- A step that writes `CMD` runs the word it writes (20_memory.md R60). -/
theorem step_write_cmd {s : State} {c : Word} {rest : List Input} (h : s.inputs = .write 0x04 4 c :: rest) :
    step s = runCommand c ((s.setInputs rest).respond .ok) := by
  rw [step, h]
  exact (memWrite_of_accepted (accepted_offset .cmd) c _).trans (if_pos rfl)

theorem runCommand_of_decode {c : Word} {i : Instr} (h : decode c = .ok i) (s : State) : runCommand c s = exec i s := by
  simp only [runCommand, h]

/-- Settles O35: the write reaches `CMD`, and the word it holds is decoded. -/
theorem stepRunsTheDecodedCommand : Obligations.StepRunsTheDecodedCommand := by
  unfold Obligations.StepRunsTheDecodedCommand
  intro s c i rest hs hd
  exact (step_write_cmd hs).trans (runCommand_of_decode hd _)

/-! ### LOADHDR -/

/-- The header buffer after the window words `ks` are written in order, word `k` with the value `v k`. -/
def storeWords (v : Fin 14 → Word) (ks : List (Fin 14)) (m : Memory) : Memory :=
  ks.foldl (fun m k => setHdrWord m k.val (v k)) m

/-- Running window writes: one step each, every one answered, and nothing but the header buffer changed. -/
theorem run_wrhdr (v : Fin 14 → Word) (ks : List (Fin 14)) (rest : List Input) (s : State)
    (h : s.inputs = ks.map (fun k => wrhdr k (v k)) ++ rest) :
    core.run ks.length s = .next { s with
      hdr := storeWords v ks s.hdr, inputs := rest, responses := List.replicate ks.length .ok ++ s.responses } := by
  induction ks generalizing s with
  | nil =>
    obtain rfl : s.inputs = rest := h
    rfl
  | cons k ks ih =>
    have hfirst := step_write s (.hdrw k) (v k) _ h nofun
    rw [List.length_cons, core_run_of_step hfirst, ih _ (storeReg_inputs _ _ _), storeReg_responses, respond_responses,
      List.replicate_succ', List.append_assoc]
    rfl

/-- A byte after window writes: that of its word's value if the word is written, else its own (20_memory.md R55). -/
theorem read_storeWords (v : Fin 14 → Word) (ks : List (Fin 14)) {m : Memory} (hm : Memory.wf m) (k : Fin 14) {t : Nat}
    (ht : t < 4) (hlt : 4 * k.val + t < 54) :
    Memory.read (storeWords v ks m) (4 * k.val + t) =
      if k ∈ ks then (v k).extractLsb' (8 * t) 8 else Memory.read m (4 * k.val + t) := by
  induction ks generalizing m with
  | nil => rfl
  | cons k' ks ih =>
    have htail := ih (wf_setHdrWord hm k'.val (v k'))
    rw [read_setHdrWord hm] at htail
    rw [storeWords, List.foldl_cons, ← storeWords, htail]
    by_cases hk : k = k'
    · subst hk
      rw [if_pos (c := 4 * k.val ≤ _ ∧ _) (by omega), Nat.add_sub_cancel_left, ite_self, if_pos List.mem_cons_self]
    · have hword := Fin.val_ne_of_ne hk
      rw [if_neg (c := 4 * k'.val ≤ _ ∧ _) (by omega)]
      simp only [List.mem_cons, hk, false_or]

/-- The value LOADHDR writes to window word `k` (30_encoding.md R76). -/
def loadhdrWord (bytes : List Byte) (k : Fin 14) : Word :=
  bits32 (fromLE ((bytes.take Config.hdrBytes).drop (4 * k.val) |>.take 4))

theorem loadhdr_eq (bytes : List Byte) :
    loadhdr bytes = (List.finRange 14).map (fun k => wrhdr k (loadhdrWord bytes k)) := rfl

/-- Byte `t` of the number in at most four bytes. -/
theorem byte_of_bits32_fromLE {l : List Byte} (hl : l.length ≤ 4) {t : Nat} (ht : t < l.length) :
    (bits32 (fromLE l)).extractLsb' (8 * t) 8 = l[t] := by
  have hfit : fromLE l ≤ Config.maxWord := Nat.le_of_lt_succ
    ((fromLE_lt l).trans_le (Nat.pow_le_pow_right (by decide) hl))
  rw [← byte_eq_extractLsb', u32_bits32 hfit, byte_of_fromLE l t ht]

/-- The bytes of LOADHDR's words are the bytes it is given (30_encoding.md R76). -/
theorem byte_of_loadhdrWord {bytes : List Byte} {k : Fin 14} {t : Nat} (ht : t < 4) (h54 : 4 * k.val + t < 54)
    (hlt : 4 * k.val + t < bytes.length) :
    (loadhdrWord bytes k).extractLsb' (8 * t) 8 = bytes[4 * k.val + t] := by
  rw [loadhdrWord, byte_of_bits32_fromLE (List.length_take_le _ _) (by
    simp only [List.length_take, List.length_drop, Config.hdrBytes]
    omega)]
  simp only [List.getElem_take, List.getElem_drop]

/-- Each header byte after LOADHDR's window writes (30_encoding.md R76): position `j` lies in word `j / 4`. -/
theorem read_storeWords_loadhdrWord {bytes : List Byte} (hlen : bytes.length = 54) {m : Memory} (hm : Memory.wf m)
    {j : Nat} (hj : j < 54) :
    some (Memory.read (storeWords (loadhdrWord bytes) (List.finRange 14) m) j) = bytes[j]? := by
  obtain ⟨k, t, ht, rfl⟩ : ∃ (k : Fin 14) (t : Nat), t < 4 ∧ j = 4 * k.val + t :=
    ⟨⟨j / 4, by omega⟩, j % 4, by omega, (Nat.div_add_mod j 4).symm⟩
  rw [read_storeWords _ _ hm k ht hj, if_pos (List.mem_finRange k), byte_of_loadhdrWord ht hj (hlen ▸ hj),
    List.getElem?_eq_getElem]

/-- Settles O47: 14 window writes, each byte being that of the one word it lies in. -/
theorem loadhdrLoadsTheBuffer : Obligations.LoadhdrLoadsTheBuffer := by
  unfold Obligations.LoadhdrLoadsTheBuffer
  intro s bytes rest hm hlen hs
  have hrun := run_wrhdr (loadhdrWord bytes) (List.finRange 14) rest s (loadhdr_eq bytes ▸ hs)
  rw [List.length_finRange] at hrun
  have hbytes := fun j (hj : j < 54) => read_storeWords_loadhdrWord hlen hm hj
  generalize storeWords _ _ s.hdr = m at hrun hbytes
  exact ⟨_, hrun, rfl, hbytes⟩

end Sys2Proof.Machine
end

section
/-! SUPPORT and settlements for 40_stride.md: the stride function, its two range checks in the terms of the claims, and
the commands STRIDE and ROWOFF. -/

namespace Sys2Proof.Machine

/-! ### The stride function -/

/-- Settles O6: the ceiling of a quotient is minus the floor of its negative. -/
theorem rowBytesIsTheCeiling : Obligations.RowBytesIsTheCeiling := by
  unfold Obligations.RowBytesIsTheCeiling
  intro w
  have hceil := Rat.ceil_intCast_div_natCast (w * 3) 4
  push_cast at hceil
  rw [rowBytes, hceil]

/-- Settles O5: `stride` is the claims' row length, and the other two facts are read off its closed form and its
definition. -/
theorem strideFunction : Obligations.StrideFunction := by
  unfold Obligations.StrideFunction
  intro w
  refine ⟨?_, ?_, Dvd.intro _ rfl⟩
  · have hrow := rowBytes_of_nonneg (Int.natCast_nonneg w)
    rw [Int.toNat_natCast] at hrow
    rw [← hrow, rowBytesIsTheCeiling, Int.cast_natCast]
  · rw [stride_eq]
    omega

/-- Settles O7: each form and property is arithmetic on the closed forms. -/
theorem strideProperties : Obligations.StrideProperties := by
  unfold Obligations.StrideProperties
  refine ⟨fun w => ⟨?_, stride_eq w, rfl, pad_eq w, ?_, ?_, ?_, ?_⟩, fun v w h => ?_⟩ <;> simp only [stride_eq] <;> omega

theorem rowBytes_nonneg {w : Int} (h : 0 ≤ w) : 0 ≤ rowBytes w := rowBytes_of_nonneg h ▸ Int.natCast_nonneg _

/-- The widths whose row length fits 32 bits (40_stride.md R103). -/
theorem rowBytes_le_iff (w : Int) : rowBytes w ≤ 4294967295 ↔ w ≤ 1431655764 := by
  unfold rowBytes
  omega

/-! ### The range checks in the terms of the claims -/

theorem stride_gt_iff {w : Int} (h : 0 ≤ w) : stride w.toNat > Config.maxWord ↔ rowBytes w > 4294967295 := by
  rw [rowBytes_of_nonneg h, Config.maxWord]
  omega

theorem fileSize_gt_iff {w h : Int} (hw : 0 ≤ w) (hh : 0 ≤ h) :
    fileSize w.toNat h.toNat > Config.maxWord ↔ 54 + rowBytes w * h > 4294967295 := by
  rw [fileSize_of_nonneg hw hh, Config.maxWord]
  omega

theorem widthCheck_eq (w : Int) : widthCheck w =
    if w < 0 then some .widthNegative else if rowBytes w > 4294967295 then some .strideRange else none := by
  unfold widthCheck
  by_cases hw : w < 0
  · rw [if_pos hw, if_pos hw]
  · simp only [if_neg hw, stride_gt_iff (not_lt.mp hw)]

/-- Settles O8: by the check's branches; the last form is the bound on the widths whose row length fits. -/
theorem widthCheckFirstFailure : Obligations.WidthCheckFirstFailure := by
  unfold Obligations.WidthCheckFirstFailure
  intro w
  rw [← rowBytes_le_iff, widthCheck_eq]
  split_ifs <;> simp <;> omega

theorem dimsCheck_eq (w h : Int) : dimsCheck w h =
    if w < 0 then some .widthNegative else if h < 0 then some .heightNegative
    else if rowBytes w > 4294967295 then some .strideRange
    else if 54 + rowBytes w * h > 4294967295 then some .sizeRange else none := by
  unfold dimsCheck
  by_cases hw : w < 0
  · rw [if_pos hw, if_pos hw]
  by_cases hh : h < 0
  · simp only [if_neg hw, if_pos hh]
  · simp only [if_neg hw, if_neg hh, stride_gt_iff (not_lt.mp hw), fileSize_gt_iff (not_lt.mp hw) (not_lt.mp hh)]

/-- What the dimension check answers is the first check to fail (40_stride.md R104). -/
theorem dimsFailure_of_dimsCheck {w h : Int} {c : Check} (hc : dimsCheck w h = some c) : DimsFailure w h c.num := by
  rw [dimsCheck_eq] at hc
  split_ifs at hc with hw hh hrow hsize <;> cases hc
  · exact hw
  · exact ⟨not_lt.mp hw, hh⟩
  · exact ⟨not_lt.mp hw, not_lt.mp hh, hrow⟩
  · exact ⟨not_lt.mp hw, not_lt.mp hh, not_lt.mp hrow, hsize⟩

/-- The check that is the first to fail is one of 6 to 9 (40_stride.md R104). -/
theorem dimsFailure_cases {w h : Int} {n : Nat} (hn : DimsFailure w h n) :
    n = 6 ∧ w < 0 ∨ n = 7 ∧ 0 ≤ w ∧ h < 0 ∨ n = 8 ∧ 0 ≤ w ∧ 0 ≤ h ∧ rowBytes w > 4294967295 ∨
      n = 9 ∧ 0 ≤ w ∧ 0 ≤ h ∧ rowBytes w ≤ 4294967295 ∧ 54 + rowBytes w * h > 4294967295 := by
  unfold DimsFailure at hn
  split at hn
  · exact .inl ⟨rfl, hn⟩
  · exact .inr (.inl ⟨rfl, hn⟩)
  · exact .inr (.inr (.inl ⟨rfl, hn⟩))
  · exact .inr (.inr (.inr ⟨rfl, hn⟩))
  · exact hn.elim

/-- Dimensions with a failing check do not fit (40_stride.md R104). -/
theorem not_dimsFit_of_dimsFailure {w h : Int} {n : Nat} (hn : DimsFailure w h n) : ¬DimsFit w h := by
  have := dimsFailure_cases hn
  omega

/-- One check at most is the first to fail (40_stride.md R104). -/
theorem dimsFailure_unique {w h : Int} {m n : Nat} (hm : DimsFailure w h m) (hn : DimsFailure w h n) : m = n := by
  have := dimsFailure_cases hm
  have := dimsFailure_cases hn
  omega

/-- The dimension check answers the first check to fail (40_stride.md R104). -/
theorem exists_dimsCheck_of_dimsFailure {w h : Int} {n : Nat} (hn : DimsFailure w h n) :
    ∃ c : Check, c.num = n ∧ dimsCheck w h = some c := by
  cases hc : dimsCheck w h with
  | none => exact absurd ((dimsCheck_eq_none_iff_dimsFit w h).mp hc) (not_dimsFit_of_dimsFailure hn)
  | some c => exact ⟨c, dimsFailure_unique (dimsFailure_of_dimsCheck hc) hn, rfl⟩

/-- Settles O9: a check is answered exactly when it is the first to fail, as no two are. -/
theorem dimsCheckFirstFailure : Obligations.DimsCheckFirstFailure := by
  unfold Obligations.DimsCheckFirstFailure
  refine fun w h => ⟨fun c => ⟨dimsFailure_of_dimsCheck, fun hc => ?_⟩, dimsCheck_eq_none_iff_dimsFit w h⟩
  obtain ⟨d, hnum, hd⟩ := exists_dimsCheck_of_dimsFailure hc
  exact Check.num_inj hnum ▸ hd

/-! ### STRIDE -/

/-- STRIDE where the width check passes (40_stride.md R105). -/
theorem exec_stride_of_widthCheck_eq_none {s : State} (h : widthCheck (s32 s.width) = none) :
    exec .stride s = .next ((s.setGeometry (bits32 (stride (s32 s.width).toNat))
      (bits32 (pad (s32 s.width).toNat))).setStatus 0x00010000#32) := by
  rw [exec_stride, strideBody, h]
  rfl

/-- STRIDE where a width check fails (40_stride.md R105). -/
theorem exec_stride_of_widthCheck_eq_some {s : State} {c : Check} (h : widthCheck (s32 s.width) = some c) :
    exec .stride s = .next (s.setStatus (statusOf 3 c.num 1)) := by
  rw [exec_stride, strideBody, h]
  rfl

/-- `STRIDE` and `PAD` of a width that is not negative, in the terms of the claims (10_state.md R24, R25). -/
theorem setGeometry_stride_pad {w : Int} (h : 0 ≤ w) (s : State) :
    s.setGeometry (bits32 (stride w.toNat)) (bits32 (pad w.toNat)) =
      { s with stride := BitVec.ofInt 32 (rowBytes w), pad := BitVec.ofInt 32 (rowBytes w - 3 * w) } := by
  rw [bits32_eq_ofInt, bits32_eq_ofInt, pad_of_nonneg h, rowBytes_of_nonneg h]
  rfl

/-- Settles O12: one clause for each answer of the width check. -/
theorem strideResult : Obligations.StrideResult := by
  unfold Obligations.StrideResult
  refine ⟨rfl, fun s => ?_⟩
  obtain ⟨negative, overflow, -, fits⟩ := widthCheckFirstFailure (s32 s.width)
  refine ⟨fun h0 h1 => ?_, fun h => ?_, fun h => ?_⟩
  · rw [exec_stride_of_widthCheck_eq_none (fits.mpr ⟨h0, h1⟩), setGeometry_stride_pad h0]
    rfl
  · exact exec_stride_of_widthCheck_eq_some (negative.mpr h)
  · have hrow : rowBytes (s32 s.width) > 2 ^ 32 - 1 := not_le.mp (mt (rowBytes_le_iff _).mp (not_le.mpr h))
    exact exec_stride_of_widthCheck_eq_some (overflow.mpr ⟨by omega, hrow⟩)

/-- Settles O13: STRIDE writes no register it reads, so it comes to the same end again. -/
theorem strideTwiceIsStride : Obligations.StrideTwiceIsStride := by
  unfold Obligations.StrideTwiceIsStride
  intro s t h
  cases hw : widthCheck (s32 s.width) with
  | none =>
    cases (exec_stride_of_widthCheck_eq_none hw).symm.trans h
    exact exec_stride_of_widthCheck_eq_none hw
  | some c =>
    cases (exec_stride_of_widthCheck_eq_some hw).symm.trans h
    exact exec_stride_of_widthCheck_eq_some hw

/-! ### ROWOFF -/

/-- ROWOFF for a row of an image that fits (40_stride.md R106). -/
theorem exec_rowoff_of_row {s : State} (hfit : DimsFit (s32 s.width) (s32 s.height)) (h0 : 0 ≤ s32 s.row)
    (h1 : s32 s.row < s32 s.height) :
    exec .rowoff s = .next ((s.setRowoff (BitVec.ofInt 32
      (54 + (s32 s.height - 1 - s32 s.row) * rowBytes (s32 s.width)))).setStatus 0x00090000#32) := by
  have hoff : bits32 (kHdrLen + (s32 s.height - 1 - s32 s.row).toNat * stride (s32 s.width).toNat) =
      BitVec.ofInt 32 (54 + (s32 s.height - 1 - s32 s.row) * rowBytes (s32 s.width)) := by
    rw [bits32_eq_ofInt, rowBytes_of_nonneg hfit.1]
    push_cast
    rw [Int.toNat_of_nonneg (by omega : 0 ≤ s32 s.height - 1 - s32 s.row)]
    rfl
  rw [exec_rowoff, rowoffBody, (dimsCheck_eq_none_iff_dimsFit _ _).mpr hfit]
  simp only [if_neg (show ¬(s32 s.row < 0 ∨ s32 s.row ≥ s32 s.height) by omega), hoff]
  rfl

/-- ROWOFF where no row of an image that fits has the number `ROW` (40_stride.md R106). -/
theorem exec_rowoff_of_row_range {s : State} (hfit : DimsFit (s32 s.width) (s32 s.height))
    (hr : s32 s.row < 0 ∨ s32 s.height ≤ s32 s.row) : exec .rowoff s = .next (s.setStatus (statusOf 3 13 9)) := by
  rw [exec_rowoff, rowoffBody, (dimsCheck_eq_none_iff_dimsFit _ _).mpr hfit]
  simp only [if_pos hr]
  rfl

/-- ROWOFF where a dimension check fails (40_stride.md R106). -/
theorem exec_rowoff_of_dimsFailure {s : State} {n : Nat} (hn : DimsFailure (s32 s.width) (s32 s.height) n) :
    exec .rowoff s = .next (s.setStatus (statusOf 3 n 9)) := by
  obtain ⟨c, rfl, hc⟩ := exists_dimsCheck_of_dimsFailure hn
  rw [exec_rowoff, rowoffBody, hc]
  rfl

/-- A row begins one row length or more before the end of the file: row 0 begins there, the others below
(40_stride.md R106). -/
theorem row_offset_le {w h r : Int} (hw : 0 ≤ w) (hr : 0 ≤ r) :
    54 + (h - 1 - r) * rowBytes w ≤ 54 + rowBytes w * h - rowBytes w := by
  have hrows : 0 ≤ r * rowBytes w := mul_nonneg hr (rowBytes_nonneg hw)
  calc 54 + (h - 1 - r) * rowBytes w = 54 + rowBytes w * h - rowBytes w - r * rowBytes w := by ring
    _ ≤ 54 + rowBytes w * h - rowBytes w := by omega

/-- Settles O14: one clause for each end of ROWOFF's body, and the bound on the offset. -/
theorem rowoffResult : Obligations.RowoffResult := by
  unfold Obligations.RowoffResult
  refine ⟨rfl, fun s => ⟨fun hfit h0 h1 => ?_, fun n hn => ?_, fun hfit hr => ?_⟩⟩
  · exact ⟨exec_rowoff_of_row hfit h0 h1, row_offset_le hfit.1 h0⟩
  · exact exec_rowoff_of_dimsFailure hn
  · exact exec_rowoff_of_row_range hfit hr

end Sys2Proof.Machine
end

section
/-! SUPPORT and settlements for 41_header_serialize.md: the commands BUILD, PACK and ENCODE, and the wire codec's
round trip from the field registers. -/

namespace Sys2Proof.Machine

/-! ### PACK -/

theorem exec_pack_eq (s : State) :
    exec .pack s = .next ((s.setHdr (packFields s.fields s.hdr)).setStatus 0x00030000#32) := rfl

theorem exec_unpack_eq (s : State) :
    exec .unpack s = .next ((s.setFields (unpackFields s.hdr)).setStatus 0x00040000#32) := rfl

/-- What a field register shows is a number its wire bytes can carry (10_state.md R31). -/
theorem u32_read_lt (F : Fields) (f : Field) : u32 (F.read f) < 256 ^ f.wireSize := by
  rw [Fields.read, u32_existing]
  exact Nat.mod_lt _ (Nat.pow_pos (by decide))

/-- The number UNPACK reads from a field's packed bytes is the one the register showed. -/
theorem readLE_packFields (F : Fields) {m : Memory} (hm : Memory.wf m) (f : Field) :
    readLE (packFields F m) f.wireOffset f.wireSize = u32 (F.read f) :=
  (readLE_of_bytes fun _ ht => hdrByte_packFields F hm ht).trans (Nat.mod_eq_of_lt (u32_read_lt F f))

theorem raw_unpackFields_packFields (F : Fields) {m : Memory} (hm : Memory.wf m) (f : Field) :
    (unpackFields (packFields F m)).raw f = F.read f := by
  rw [← u32_inj, u32_raw_unpackFields, readLE_packFields F hm]

/-- Settles O23: each field's packed bytes are read back as the number its register showed, and UNPACK writes no
header byte. -/
theorem unpackInvertsPack : Obligations.UnpackInvertsPack := by
  unfold Obligations.UnpackInvertsPack
  refine fun s hwf => ⟨_, _, exec_pack_eq s, exec_unpack_eq _, fun f => ?_, by simp⟩
  simpa using raw_unpackFields_packFields s.fields hwf f

/-- PACK's two updates write the header buffer and `STATUS` alone. -/
theorem setHdr_setStatus_frame (s : State) (m : Memory) (v : Word) :
    (s.setHdr m).setStatus v = { s with hdr := ((s.setHdr m).setStatus v).hdr, status := v } := rfl

/-- Reading masks no bit that a wire byte carries (10_state.md R31, 30_encoding.md R81). -/
theorem byte_read_eq_byte_raw (F : Fields) {f : Field} {j : Nat} (hj : j < f.wireSize) :
    (F.read f).extractLsb' (8 * j) 8 = (F.raw f).extractLsb' (8 * j) 8 := by
  unfold Fields.read Field.existing
  split_ifs with h2
  · rw [h2] at hj
    ext i hi
    have h16 : 8 * j + i < 16 := by omega
    have h32 : 8 * j + i < 32 := by omega
    simp [low16, h16, h32]
  · rfl

/-- A packed byte, as bits of its register (41_header_serialize.md R122). -/
theorem read_packFields (F : Fields) {m : Memory} (hm : Memory.wf m) {f : Field} {j : Nat} (hj : j < f.wireSize) :
    Memory.read (packFields F m) (f.wireOffset + j) = (F.raw f).extractLsb' (8 * j) 8 := by
  have hend : f.wireOffset + f.wireSize ≤ 54 := wire_end f
  rw [← hdrByte_of_lt (by omega), hdrByte_packFields F hm hj, byte_eq_extractLsb', byte_read_eq_byte_raw F hj]

/-- Settles O16: the packed bytes are those of the registers, and no canonical header lists a position from 54 on. -/
theorem packWritesWireBytes : Obligations.PackWritesWireBytes := by
  unfold Obligations.PackWritesWireBytes
  refine ⟨rfl, fun s hwf => ⟨_, exec_pack_eq s, setHdr_setStatus_frame s _ _, fun f j hj => ?_, fun a ha => ?_⟩⟩
  · simpa using read_packFields s.fields hwf hj
  · rw [setStatus_hdr, setHdr_hdr, read_of_ge (wf_packFields s.fields hwf) ha, read_of_ge hwf ha]

/-! ### BUILD -/

/-- The field registers BUILD writes, in the terms of the claims (41_header_serialize.md R120, R121). -/
theorem ofFun_buildValue (width height : Word) {w h : Int} (hw : 0 ≤ w) (hh : 0 ≤ h) :
    Fields.ofFun (buildValue width height (stride w.toNat) h.toNat) = {
      magic := BitVec.ofNat 32 kMagic
      fsize := BitVec.ofInt 32 (54 + rowBytes w * h)
      rsvd := 0
      offbits := 54
      isize := 40
      width := width
      height := height
      planes := 1
      bpp := 24
      comp := 0
      imgsize := BitVec.ofInt 32 (rowBytes w * h)
      xres := 11811
      yres := 11811
      clrused := 0
      clrimp := 0x01000000#32 } := by
  have himg : rowBytes w * h = (stride w.toNat * h.toNat : Nat) := by
    rw [rowBytes_of_nonneg hw, Nat.cast_mul, Int.toNat_of_nonneg hh]
  rw [fileSize_of_nonneg hw hh, himg, ← bits32_eq_ofInt, ← bits32_eq_ofInt]
  rfl

/-- The body of BUILD where the dimensions fit (41_header_serialize.md R120). -/
theorem buildBody_of_dimsFit {s : State} (hfit : DimsFit (s32 s.width) (s32 s.height)) :
    buildBody s = .ok ((s.setFields (Fields.ofFun (buildValue s.width s.height (stride (s32 s.width).toNat)
      (s32 s.height).toNat))).setGeometry (bits32 (stride (s32 s.width).toNat)) (bits32 (pad (s32 s.width).toNat))) := by
  rw [buildBody, (dimsCheck_eq_none_iff_dimsFit _ _).mpr hfit]

/-- The body of BUILD where a dimension check fails (41_header_serialize.md R120). -/
theorem buildBody_of_dimsFailure {s : State} {n : Nat} (hn : DimsFailure (s32 s.width) (s32 s.height) n) :
    ∃ c : Check, c.num = n ∧ buildBody s = .error ⟨.range, c⟩ := by
  obtain ⟨c, hnum, hc⟩ := exists_dimsCheck_of_dimsFailure hn
  exact ⟨c, hnum, by rw [buildBody, hc]⟩

/-- Settles O15: one clause for each end of BUILD's body. -/
theorem buildResult : Obligations.BuildResult := by
  unfold Obligations.BuildResult
  refine ⟨rfl, fun s => ⟨fun hfit => ?_, fun n hn => ?_⟩⟩
  · rw [exec_build, buildBody_of_dimsFit hfit, ofFun_buildValue _ _ hfit.1 hfit.2.1, setGeometry_stride_pad hfit.1]
    rfl
  · obtain ⟨c, rfl, hbody⟩ := buildBody_of_dimsFailure hn
    rw [exec_build, hbody]
    rfl

/-! ### ENCODE -/

/-- Settles O17: ENCODE packs BUILD's body, and PACK reads nothing of the `STATUS` that BUILD writes in between. -/
theorem encodeIsBuildThenPack : Obligations.EncodeIsBuildThenPack := by
  unfold Obligations.EncodeIsBuildThenPack
  refine ⟨rfl, fun s => ⟨fun hfit => ?_, fun n hn => ?_⟩⟩
  · have hbody := buildBody_of_dimsFit hfit
    refine ⟨_, _, by rw [exec_build, hbody, complete], exec_pack_eq _, ?_⟩
    rw [exec_encode, encodeBody, hbody]
    simp only [complete, packBody, succeed_eq, setStatus_fields, setStatus_hdr]
    rfl
  · obtain ⟨c, rfl, hbody⟩ := buildBody_of_dimsFailure hn
    rw [exec_encode, encodeBody, hbody]
    rfl

end Sys2Proof.Machine
end

section
/-! SUPPORT and settlements for 42_header_deserialize.md: the commands UNPACK, VALIDATE and DECODE, and the wire codec's
round trips from the header bytes and from a geometry. -/

namespace Sys2Proof.Machine

/-! ### UNPACK -/

/-- An unpacked byte of a field register is the wire byte (42_header_deserialize.md R140). -/
theorem byte_raw_unpackFields (m : Memory) {f : Field} {j : Nat} (hj : j < f.wireSize) :
    ((unpackFields m).raw f).extractLsb' (8 * j) 8 = Memory.read m (f.wireOffset + j) := by
  have hend : f.wireOffset + f.wireSize ≤ 54 := wire_end f
  rw [← byte_eq_extractLsb', u32_raw_unpackFields, byte_of_readLE hj, hdrByte_of_lt (by omega)]

/-- Settles O18: a field register holds the number of its wire bytes, and so many bytes hold no larger number. -/
theorem unpackReadsWireBytes : Obligations.UnpackReadsWireBytes := by
  unfold Obligations.UnpackReadsWireBytes
  refine ⟨rfl, fun s => ⟨_, exec_unpack_eq s, rfl, fun f => ⟨fun j hj => byte_raw_unpackFields s.hdr hj, ?_⟩⟩⟩
  exact (u32_raw_unpackFields s.hdr f).trans_lt (readLE_lt _ _ _)

/-- Packing the fields just unpacked writes every byte's own value over it. -/
theorem packFields_unpackFields {m : Memory} (hm : Memory.wf m) : packFields (unpackFields m) m = m := by
  refine hdr_ext (wf_packFields _ hm) hm fun j hj => ?_
  obtain ⟨f, hle, hlt⟩ := exists_covers hj
  obtain ⟨t, rfl⟩ := Nat.exists_eq_add_of_le hle
  have ht : t < f.wireSize := by omega
  rw [hdrByte_packFields _ hm ht, read_unpackFields, u32_raw_unpackFields, byte_of_readLE ht]

/-- Settles O24: PACK writes the bytes UNPACK read, and no field register. -/
theorem packInvertsUnpack : Obligations.PackInvertsUnpack := by
  unfold Obligations.PackInvertsUnpack
  refine fun s hwf => ⟨_, _, exec_unpack_eq s, exec_pack_eq _, ?_, by simp⟩
  simpa using packFields_unpackFields hwf

/-! ### The header checks -/

/-- One check at most is the first to fail (60_exceptions.md R184). -/
theorem firstFailure_unique {x : Bool} {F : Fields} {m n : Nat} (hm : FirstFailure x F m) (hn : FirstFailure x F n) :
    m = n :=
  le_antisymm (not_lt.mp fun hlt => hm.2 n hlt hn.1) (not_lt.mp fun hlt => hn.2 m hlt hm.1)

/-- What the checks answer, in the terms of the claims (42_header_deserialize.md R141, 60_exceptions.md R184). -/
theorem validateChecks_cases (x : Bool) (F : Fields) :
    (HeaderPasses x F ∧ validateChecks x F = none) ∨
    (∃ e : Failure, FirstFailure x F e.check.num ∧ e.code.num = checkCode e.check.num ∧
      validateChecks x F = some e) := by
  have h := validateChecks_spec x F
  cases hc : validateChecks x F with
  | none =>
    rw [hc] at h
    exact .inl ⟨h, rfl⟩
  | some e =>
    rw [hc] at h
    obtain ⟨hfirst, hcode, -⟩ := h
    exact .inr ⟨e, hfirst, hcode, rfl⟩

theorem headerPasses_or_firstFailure (x : Bool) (F : Fields) : HeaderPasses x F ∨ ∃ n, FirstFailure x F n := by
  rcases validateChecks_cases x F with ⟨hp, -⟩ | ⟨e, hfirst, -⟩
  · exact .inl hp
  · exact .inr ⟨_, hfirst⟩

theorem validateChecks_of_headerPasses {x : Bool} {F : Fields} (hp : HeaderPasses x F) : validateChecks x F = none := by
  rcases validateChecks_cases x F with ⟨-, hc⟩ | ⟨e, hfirst, -⟩
  · exact hc
  · exact absurd hfirst.1 (hp _)

theorem validateChecks_of_firstFailure {x : Bool} {F : Fields} {n : Nat} (hn : FirstFailure x F n) :
    ∃ e : Failure, e.code.num = checkCode n ∧ e.check.num = n ∧ validateChecks x F = some e := by
  rcases validateChecks_cases x F with ⟨hp, -⟩ | ⟨e, hfirst, hcode, hc⟩
  · exact absurd hn.1 (hp n)
  · obtain rfl := firstFailure_unique hfirst hn
    exact ⟨e, hcode, rfl, hc⟩

/-- The body of VALIDATE on a header that passes (42_header_deserialize.md R142). -/
theorem validateBody_of_headerPasses {s : State} (hp : HeaderPasses (s.ctrl.getLsbD 0) s.fields) :
    validateBody s = .ok { s with
      width := s.fields.width
      height := s.fields.height
      stride := BitVec.ofInt 32 (rowBytes (s32 s.fields.width))
      pad := BitVec.ofInt 32 (rowBytes (s32 s.fields.width) - 3 * s32 s.fields.width) } := by
  have hw : 0 ≤ s32 (s.fields.read .width) := not_lt.mp (hp 6)
  rw [← xchk_eq] at hp
  rw [validateBody, validateChecks_of_headerPasses hp]
  simp only [setGeometry_stride_pad hw]
  rfl

/-- The body of VALIDATE on a header that fails (42_header_deserialize.md R142). -/
theorem validateBody_of_firstFailure {s : State} {n : Nat} (hn : FirstFailure (s.ctrl.getLsbD 0) s.fields n) :
    ∃ e : Failure, e.code.num = checkCode n ∧ e.check.num = n ∧ validateBody s = .error e := by
  rw [← xchk_eq] at hn
  obtain ⟨e, hcode, hnum, hc⟩ := validateChecks_of_firstFailure hn
  exact ⟨e, hcode, hnum, by rw [validateBody, hc]⟩

/-! ### VALIDATE -/

/-- Settles O19: one clause for each end of VALIDATE's body. -/
theorem validateResult : Obligations.ValidateResult := by
  unfold Obligations.ValidateResult
  refine ⟨rfl, fun s => ⟨fun n hn => ?_, fun hp => ?_⟩⟩
  · obtain ⟨e, hcode, rfl, hbody⟩ := validateBody_of_firstFailure hn
    rw [exec_validate, hbody, ← hcode]
    rfl
  · rw [exec_validate, validateBody_of_headerPasses hp]
    rfl

/-- Settles O20: VALIDATE writes no register it reads, so it comes to the same end again. -/
theorem validateTwiceIsValidate : Obligations.ValidateTwiceIsValidate := by
  unfold Obligations.ValidateTwiceIsValidate
  intro s t h
  obtain ⟨-, result⟩ := validateResult
  obtain ⟨fails, passes⟩ := result s
  rcases headerPasses_or_firstFailure (s.ctrl.getLsbD 0) s.fields with hp | ⟨n, hn⟩
  · cases (passes hp).symm.trans h
    exact (result _).2 hp
  · cases (fails n hn).symm.trans h
    exact (result _).1 n hn

/-- What the checks read: the first seven fields listed, and with `XCHK` on three more (42_header_deserialize.md R141,
R144). -/
theorem checkFails_congr {x : Bool} {F G : Fields}
    (h : ∀ f ∈ [Field.magic, .offbits, .isize, .width, .height, .planes, .bpp], F.read f = G.read f)
    (hx : x = true → ∀ f ∈ [Field.comp, .imgsize, .fsize], F.read f = G.read f) (n : Nat) :
    CheckFails x F n ↔ CheckFails x G n := by
  simp only [List.forall_mem_cons, List.not_mem_nil, false_imp_iff, implies_true, and_true] at h hx
  obtain ⟨magic, offbits, isize, width, height, planes, bpp⟩ := h
  unfold CheckFails
  rw [magic, offbits, isize, width, height, planes, bpp]
  cases x with
  | false => simp
  | true =>
    obtain ⟨comp, imgsize, fsize⟩ := hx rfl
    rw [comp, imgsize, fsize]

/-- Settles O26: the same checks fail, and what a success loads is read from the two sizes. -/
theorem uncheckedFieldsDoNotMatter : Obligations.UncheckedFieldsDoNotMatter := by
  unfold Obligations.UncheckedFieldsDoNotMatter
  intro s F h hx
  have hfails := checkFails_congr h hx
  obtain ⟨-, result⟩ := validateResult
  obtain ⟨fails, passes⟩ := result s
  obtain ⟨failsF, passesF⟩ := result { s with fields := F }
  rcases headerPasses_or_firstFailure (s.ctrl.getLsbD 0) s.fields with hp | ⟨n, hn, hbefore⟩
  · have hpF : HeaderPasses (s.ctrl.getLsbD 0) F := fun n => mt (hfails n).mp (hp n)
    have hwidth : F.width = s.fields.width := h .width (by decide)
    have hheight : F.height = s.fields.height := h .height (by decide)
    refine ⟨_, passes hp, (passesF hpF).trans ?_⟩
    simp only [hwidth, hheight]
  · have hnF : FirstFailure (s.ctrl.getLsbD 0) F n :=
      ⟨(hfails n).mpr hn, fun m hm => mt (hfails m).mp (hbefore m hm)⟩
    exact ⟨_, fails n ⟨hn, hbefore⟩, failsF n hnF⟩

/-! ### DECODE -/

/-- DECODE is VALIDATE's body on the state with the unpacked fields, which an error keeps
(42_header_deserialize.md R143). -/
theorem exec_decode_eq {s : State} {F : Fields} (hF : unpackFields s.hdr = F) :
    exec .decode s = complete 0x07 (s.setFields F) (validateBody (s.setFields F)) := by
  rw [exec_decode, unpackBody, hF]
  rfl

theorem exec_decode_of_headerPasses {s : State} {F : Fields} (hF : unpackFields s.hdr = F)
    (hp : HeaderPasses (s.ctrl.getLsbD 0) F) :
    exec .decode s = .next { s with
      fields := F
      width := F.width
      height := F.height
      stride := BitVec.ofInt 32 (rowBytes (s32 F.width))
      pad := BitVec.ofInt 32 (rowBytes (s32 F.width) - 3 * s32 F.width)
      status := 0x00070000#32 } := by
  rw [exec_decode_eq hF, validateBody_of_headerPasses (s := s.setFields F) hp]
  rfl

theorem exec_decode_of_firstFailure {s : State} {F : Fields} (hF : unpackFields s.hdr = F) {n : Nat}
    (hn : FirstFailure (s.ctrl.getLsbD 0) F n) :
    exec .decode s = .next { s with fields := F, status := statusOf (checkCode n) n 7 } := by
  obtain ⟨e, hcode, rfl, hbody⟩ := validateBody_of_firstFailure (s := s.setFields F) hn
  rw [exec_decode_eq hF, hbody, ← hcode]
  rfl

/-- Settles O21: one clause for each end of VALIDATE's body. -/
theorem decodeResult : Obligations.DecodeResult := by
  unfold Obligations.DecodeResult
  exact ⟨rfl, fun s => ⟨unpackFields s.hdr, exec_unpack_eq s, fun _ => exec_decode_of_firstFailure rfl,
    exec_decode_of_headerPasses rfl⟩⟩

/-! ### DECODE of an encoded header -/

/-- The field registers BUILD writes (41_header_serialize.md R120, R121). -/
def builtFields (width height : Word) : Fields :=
  Fields.ofFun (buildValue width height (stride (s32 width).toNat) (s32 height).toNat)

@[simp] theorem builtFields_width (width height : Word) : (builtFields width height).width = width := rfl

@[simp] theorem builtFields_height (width height : Word) : (builtFields width height).height = height := rfl

/-- ENCODE where the dimensions fit (41_header_serialize.md R123). -/
theorem exec_encode_eq {s : State} (hfit : DimsFit (s32 s.width) (s32 s.height)) :
    exec .encode s = .next ((((s.setFields (builtFields s.width s.height)).setGeometry
      (BitVec.ofInt 32 (rowBytes (s32 s.width))) (BitVec.ofInt 32 (rowBytes (s32 s.width) - 3 * s32 s.width))).setHdr
      (packFields (builtFields s.width s.height) s.hdr)).setStatus 0x00060000#32) := by
  rw [exec_encode, encodeBody, buildBody_of_dimsFit hfit, bits32_eq_ofInt, bits32_eq_ofInt, pad_of_nonneg hfit.1,
    ← rowBytes_of_nonneg hfit.1]
  rfl

/-- The built fields hold only bits that exist, so they come back from their packed bytes (10_state.md R31). -/
theorem unpackFields_packFields_builtFields (width height : Word) {m : Memory} (hm : Memory.wf m) :
    unpackFields (packFields (builtFields width height) m) = builtFields width height :=
  fields_ext fun f => by rw [raw_unpackFields_packFields _ hm, builtFields, read_ofFun, raw_ofFun]

/-- The two size fields BUILD writes hold the exact sizes, since these fit (41_header_serialize.md R120). -/
theorem sizes_builtFields {width height : Word} (hfit : DimsFit (s32 width) (s32 height)) :
    (((builtFields width height).read .imgsize).toNat : Int) = rowBytes (s32 width) * s32 height ∧
    (((builtFields width height).read .fsize).toNat : Int) = 54 + rowBytes (s32 width) * s32 height := by
  obtain ⟨hw, hh, -, hsize⟩ := hfit
  have hfile := fileSize_of_nonneg hw hh
  have hsum : fileSize (s32 width).toNat (s32 height).toNat = 54 + stride (s32 width).toNat * (s32 height).toNat := rfl
  have hle : fileSize (s32 width).toNat (s32 height).toNat ≤ Config.maxWord := by rw [Config.maxWord]; omega
  have himgsize : ((builtFields width height).read .imgsize).toNat = stride (s32 width).toNat * (s32 height).toNat :=
    u32_bits32 (by omega)
  have hfsize : ((builtFields width height).read .fsize).toNat = fileSize (s32 width).toNat (s32 height).toNat :=
    u32_bits32 hle
  exact ⟨by omega, by omega⟩

/-- BUILD writes a header that passes every check, the cross-checks included: checks 1 to 5 and 10 compare constants,
6 to 9 are that the dimensions fit, 11 and 12 compare the sizes (42_header_deserialize.md R141). -/
theorem headerPasses_builtFields {width height : Word} (hfit : DimsFit (s32 width) (s32 height)) (x : Bool) :
    HeaderPasses x (builtFields width height) := by
  obtain ⟨himgsize, hfsize⟩ := sizes_builtFields hfit
  obtain ⟨hw, hh, hrow, hsize⟩ := hfit
  intro n hn
  unfold CheckFails at hn
  split at hn
  · exact hn rfl
  · exact hn rfl
  · exact hn rfl
  · exact hn rfl
  · exact hn rfl
  · exact not_le.mpr hn hw
  · exact not_le.mpr hn hh
  · exact not_le.mpr hn hrow
  · exact not_le.mpr hn hsize
  · exact hn.2 rfl
  · exact hn.2 himgsize
  · exact hn.2 hfsize
  · exact hn

/-- Settles O25: DECODE reads the built fields back, and they pass. -/
theorem decodeInvertsEncode : Obligations.DecodeInvertsEncode := by
  unfold Obligations.DecodeInvertsEncode
  refine fun s hwf hfit => ⟨_, exec_encode_eq hfit, fun v hv => ?_⟩
  have hF : unpackFields v.hdr = builtFields s.width s.height := by
    rw [hv, setStatus_hdr, setHdr_hdr, unpackFields_packFields_builtFields _ _ hwf]
  rw [exec_decode_of_headerPasses hF (headerPasses_builtFields hfit _)]
  simp

end Sys2Proof.Machine
end

section
/-! SUPPORT and settlements for 43_control.md: NOP, SRESET, and the words that select no command. -/

namespace Sys2Proof.Machine

/-! ### NOP -/

/-- A state in which every command but NOP and SRESET fails or changes more than `STATUS`: the width is negative
(check 6), and the magic is neither the number of check 1 nor the number in the header bytes. -/
def tellingState : State := { State.reset with width := 0xFFFFFFFF, fields := { Fields.reset with magic := 1 } }

theorem exec_ne_next {i : Instr} {s t u : State} (h : exec i s = .next t) (hne : t ≠ u) : exec i s ≠ .next u :=
  fun hu => hne (Host.Outcome.next.inj (h.symm.trans hu))

/-- Settles O10: NOP's own equation, and what each other command does in `tellingState`. -/
theorem nopWritesStatusOnly : Obligations.NopWritesStatusOnly := by
  unfold Obligations.NopWritesStatusOnly
  refine ⟨rfl, exec_nop, fun i hnop hsreset => ⟨tellingState, ?_⟩⟩
  cases i with
  | nop => exact absurd rfl hnop
  | sreset => exact absurd rfl hsreset
  | stride => exact exec_ne_next (t := tellingState.setStatus 0x00010603) rfl (by decide)
  | build => exact exec_ne_next (t := tellingState.setStatus 0x00020603) rfl (by decide)
  | pack => exact exec_ne_next (t := (tellingState.setHdr [(0, 1)]).setStatus 0x00030000) rfl (by decide)
  | unpack => exact exec_ne_next (t := (tellingState.setFields .reset).setStatus 0x00040000) rfl (by decide)
  | validate => exact exec_ne_next (t := tellingState.setStatus 0x00050101) rfl (by decide)
  | encode => exact exec_ne_next (t := tellingState.setStatus 0x00060603) rfl (by decide)
  | decode => exact exec_ne_next (t := (tellingState.setFields .reset).setStatus 0x00070101) rfl (by decide)
  | rowoff => exact exec_ne_next (t := tellingState.setStatus 0x00090603) rfl (by decide)

/-! ### SRESET -/

/-- Settles O11: SRESET is a reset of the registers and then its own `STATUS`. -/
theorem sresetClearsEverything : Obligations.SresetClearsEverything := by
  unfold Obligations.SresetClearsEverything
  exact ⟨rfl, fun s => ⟨s.resetRegisters.setStatus 0x00080000#32, exec_sreset s, rfl, rfl, rfl, rfl, rfl, rfl, rfl, rfl,
    raw_reset, Memory.read_nil⟩⟩

/-! ### Words that select no command -/

/-- Both kinds of illegal word are rejected (30_encoding.md R74). -/
theorem exists_decode_eq_error {c : Word} (h : c.toNat / 256 ≠ 0 ∨ 9 < c.toNat % 256) : ∃ r, decode c = .error r := by
  by_cases hrsv : c.toNat / 256 = 0
  · exact ⟨_, decode_eq_unmappedOpcode_iff.mpr ⟨hrsv, h.resolve_left (not_not.mpr hrsv)⟩⟩
  · exact ⟨_, decode_eq_reservedBits_iff.mpr hrsv⟩

/-- A word that is rejected runs ILLEGAL, under its own low byte (43_control.md R172). -/
theorem runCommand_of_decode_error {c : Word} {r : DecodeReject} (h : decode c = .error r) (s : State) :
    runCommand c s = .next (s.setStatus (statusOf 4 15 (c.toNat % 256))) := by
  simp only [runCommand, h]
  rw [← toNat_wordOpc]
  rfl

/-- Settles O22: the write reaches `CMD` and is accepted, and the word it holds is rejected. -/
theorem illegalWordWritesStatusOnly : Obligations.IllegalWordWritesStatusOnly := by
  unfold Obligations.IllegalWordWritesStatusOnly
  intro s c rest hs hc
  obtain ⟨r, hr⟩ := exists_decode_eq_error hc
  exact (step_write_cmd hs).trans (runCommand_of_decode_error hr _)

end Sys2Proof.Machine
end

section
/-! SUPPORT and settlements for 60_exceptions.md: the pairs a command reports, what a failing command leaves, and that
SHC never stops. -/

namespace Sys2Proof.Machine

/-! ### The pairs a command reports -/

/-- Without `XCHK` a failing header check is one of the first nine (42_header_deserialize.md R141). -/
theorem check_lt_of_validateBody {s : State} {e : Failure} (hx : s.xchk = false) (h : validateBody s = .error e) :
    e.check.num < 10 := by
  rcases validateBody_cases s with ⟨-, hb⟩ | ⟨e', hc, hb⟩ <;> cases hb.symm.trans h
  have hspec := validateChecks_spec s.xchk s.fields
  rw [hc] at hspec
  obtain ⟨-, -, -, hlt⟩ := hspec
  exact hlt hx

/-- Without `XCHK` no command fails checks 10 to 12: only VALIDATE and DECODE make them (60_exceptions.md R183). -/
theorem check_notMem_of_bodyOf {i : Instr} {s : State} {e : Failure} (hx : s.xchk = false) (h : bodyOf i s = .error e) :
    e.check.num ∉ [10, 11, 12] := by
  have small {n : Nat} (hn : n < 10) : n ∉ [10, 11, 12] := by
    simp only [List.mem_cons, List.not_mem_nil, or_false]
    omega
  by_cases hi : i ∈ [Instr.validate, .decode]
  · obtain rfl | rfl : i = .validate ∨ i = .decode := by simpa using hi
    · exact small (check_lt_of_validateBody hx h)
    · exact small (check_lt_of_validateBody (s := unpackBody s) hx h)
  · have table : ∀ p ∈ (statusPairs i.opc.toNat).erase (4, 15), p.2 ∉ [10, 11, 12] := by
      revert hi
      cases i <;> decide
    exact table _ (pair_of_bodyOf h)

/-- Without `XCHK` no command reports checks 10 to 12 (60_exceptions.md R183). -/
theorem statusChk_notMem_of_exec {i : Instr} {s t : State} (hx : s.xchk = false) (h : exec i s = .next t) :
    (statusChk t.status).toNat ∉ [10, 11, 12] := by
  rw [exec_eq_complete] at h
  rcases complete_cases h with ⟨u, -, rfl⟩ | ⟨e, he, rfl⟩
  · rw [succeed_eq, setStatus_status, statusChk_statusWord]
    decide
  · rw [raiseError_eq, setStatus_status, statusChk_statusWord]
    exact check_notMem_of_bodyOf hx he

/-- Settles O28: `exec_status` names the word, and its pair is read back. -/
theorem commandsReportTheirPairs : Obligations.CommandsReportTheirPairs := by
  unfold Obligations.CommandsReportTheirPairs
  intro i s t h
  refine ⟨?_, fun hctrl => statusChk_notMem_of_exec ((xchk_eq s).trans hctrl) h⟩
  obtain ⟨c, k, hstatus, hpair⟩ := exec_status h
  rwa [hstatus, statusErr_statusWord, statusChk_statusWord]

/-! ### What a failing command leaves -/

/-- A command that reports an error writes only `STATUS` over the state its error leaves (60_exceptions.md R180). -/
theorem eq_failedOf_of_failure {i : Instr} {s t : State} (h : exec i s = .next t)
    (herr : t.status.extractLsb' 0 4 ≠ 0#4) : t = (failedOf i s).setStatus t.status := by
  rw [exec_eq_complete] at h
  rcases complete_cases h with ⟨u, -, rfl⟩ | ⟨e, -, rfl⟩
  · exact absurd rfl ((err_ne_zero_iff .ok .none i.opc).mp herr)
  · rw [raiseError_eq, setStatus_status]

/-- Settles O29: the state an error leaves is the one before the command, for DECODE the one UNPACK reaches. -/
theorem failureWritesStatusOnly : Obligations.FailureWritesStatusOnly := by
  unfold Obligations.FailureWritesStatusOnly
  intro i s t h herr
  have ht := eq_failedOf_of_failure h herr
  refine ⟨fun hi => ?_, fun hi => ?_⟩
  · rwa [failedOf, if_neg hi] at ht
  · rw [failedOf, if_pos hi] at ht
    have hfields : t.fields = unpackFields s.hdr := congrArg State.fields ht
    exact ⟨by rwa [hfields], _, exec_unpack_eq s, hfields⟩

/-! ### Every step goes on -/

/-- Running a command word goes on, whether or not the word selects a command (60_exceptions.md R187). -/
theorem runCommand_next (c : Word) (s : State) : ∃ t, runCommand c s = .next t := by
  cases hd : decode c with
  | ok i => exact runCommand_of_decode hd s ▸ exec_next i s
  | error r => exact ⟨_, runCommand_of_decode_error hd s⟩

/-- A step that writes goes on: the write is refused, stored, or runs a command (20_memory.md R52, R54). -/
theorem goesOn_of_write {s : State} {a n : Nat} {v : Word} {rest : List Input} (h : s.inputs = .write a n v :: rest) :
    s.GoesOn := by
  cases ha : accepted a n with
  | none => exact ⟨_, step_write_refused h ha⟩
  | some r =>
    obtain ⟨⟨rfl, -, -⟩, rfl⟩ := offset_of_accepted ha
    by_cases hr : r = .cmd
    · subst hr
      obtain ⟨t, ht⟩ := runCommand_next v ((s.setInputs rest).respond .ok)
      exact ⟨t, (step_write_cmd h).trans ht⟩
    · exact ⟨_, step_write s r v rest h hr⟩

/-- Settles O52: by the input the step takes. -/
theorem everyStepGoesOn : Obligations.EveryStepGoesOn := by
  unfold Obligations.EveryStepGoesOn
  intro s
  cases h : s.inputs with
  | nil => exact ⟨s, idleStepKeepsTheState s h⟩
  | cons i rest =>
    cases i with
    | read a n => exact ⟨_, step_read_eq h⟩
    | write a n v => exact goesOn_of_write h
    | hardReset => exact ⟨(s.setInputs rest).resetRegisters, by rw [step, h]; rfl⟩

end Sys2Proof.Machine
end

section
/-! SUPPORT and settlements for 70_reset_and_hazards.md: what the access after a command sees, and which steps change
the results. -/

namespace Sys2Proof.Machine

/-! ### The access after a command -/

/-- The lists put over the model's own fields are fixed: no command writes them (log entries 1 and 2). -/
def overwriteHost (l : List Input) (x : List Response) (_ : Unit) (s : State) : State :=
  { s with inputs := l, responses := x }

theorem unread_host (l : List Input) (x : List Response) : Unread (overwriteHost l x) where
  width _ _ := rfl
  height _ _ := rfl
  row _ _ := rfl
  fields _ _ := rfl
  hdr _ _ := rfl
  setStatus _ _ _ := ⟨(), rfl⟩
  setSize _ _ _ _ := ⟨(), rfl⟩
  setGeometry _ _ _ _ := ⟨(), rfl⟩
  setRowoff _ _ _ := ⟨(), rfl⟩
  setFields _ _ _ := ⟨(), rfl⟩
  setHdr _ _ _ := ⟨(), rfl⟩

/-- A command does not see the model's own fields (log entries 1 and 2). -/
theorem exec_host {i : Instr} {s u : State} (h : exec i s = .next u) (l : List Input) (x : List Response) :
    exec i { s with inputs := l, responses := x } = .next { u with inputs := l, responses := x } := by
  obtain ⟨_, hu, -⟩ := exec_overwritten (unread_host l x) () s h (.inl rfl) (fun _ => ⟨(), rfl⟩)
  exact hu

theorem decode_encode (i : Instr) : decode (encode i) = .ok i := decode_eq_ok_iff.mpr (toNat_encode i)

/-- A step that writes a command's word to `CMD` ends with the command's result (20_memory.md R60). -/
theorem step_write_encode {s u : State} {i : Instr} {rest : List Input}
    (hs : s.inputs = .write 0x04 4 (encode i) :: rest) (hu : exec i s = .next u) :
    step s = .next { u with inputs := rest, responses := .ok :: s.responses } :=
  calc step s
    _ = runCommand (encode i) ((s.setInputs rest).respond .ok) := step_write_cmd hs
    _ = exec i ((s.setInputs rest).respond .ok) := runCommand_of_decode (decode_encode i) _
    _ = _ := exec_host hu rest (.ok :: s.responses)

/-- Settles O42: the first step ends with the command's result, and the second reads a register of it. -/
theorem commandIsVisibleAtOnce : Obligations.CommandIsVisibleAtOnce := by
  unfold Obligations.CommandIsVisibleAtOnce
  intro s u i r rest hs hu
  refine ⟨_, step_write_encode hs hu, ?_⟩
  rw [step_read _ r rest rfl, readValue_host]
  rfl

/-! ### The steps that change results -/

/-- A store leaves the read-only registers (20_memory.md R54, 70_reset_and_hazards.md R205). -/
theorem storeReg_results (s : State) (r : Reg) (v : Word) :
    (storeReg s r v).stride = s.stride ∧ (storeReg s r v).pad = s.pad ∧ (storeReg s r v).rowoff = s.rowoff ∧
      (storeReg s r v).status = s.status := by
  cases r <;> exact ⟨rfl, rfl, rfl, rfl⟩

/-- Settles O44: by the kind of input the step takes; the two that change results are excluded. -/
theorem onlyCommandsChangeResults : Obligations.OnlyCommandsChangeResults := by
  unfold Obligations.OnlyCommandsChangeResults
  intro s t h hreset hcmd
  rcases step_cases h with ⟨-, rfl⟩ | ⟨rest, hin, -⟩ | ⟨a, n, rest, r, -, -, rfl⟩ | ⟨a, n, rest, -, -, rfl⟩ |
    ⟨a, n, v, rest, -, -, rfl⟩ | ⟨a, n, v, rest, r, -, -, -, rfl⟩ | ⟨a, n, v, rest, hin, hacc, -⟩
  case inr.inl => exact absurd (congrArg List.head? hin) hreset
  case inr.inr.inr.inr.inr.inl => exact storeReg_results _ r v
  case inr.inr.inr.inr.inr.inr =>
    obtain ⟨⟨rfl, -, -⟩, rfl⟩ := offset_of_accepted hacc
    exact absurd (congrArg List.head? hin) (hcmd v)
  all_goals exact ⟨rfl, rfl, rfl, rfl⟩

end Sys2Proof.Machine
end
